-- ==== Sys2Proof/Word.lean ====
section
/-! DEFINITION. The word types of the CHIP-8 core. Every value is unsigned; bit 0 is the least significant bit
(spec/00_scope.md R9). -/

namespace Sys2Proof

/-- A byte: a general register, a timer, a memory cell, an 8-bit immediate `NN` (R20, R29, R71). -/
abbrev Byte := BitVec 8

/-- A 16-bit word: an instruction, `pc`, `idx`, a return-stack entry (R23, R26, R28, R70). -/
abbrev Word := BitVec 16

/-- A 4-bit field of an instruction: the family `op`, the height or sub-opcode `N` (R71). -/
abbrev Nibble := BitVec 4

/-- A 12-bit immediate `NNN` (R71). -/
abbrev Imm12 := BitVec 12

/-- The number of a general register, a 4-bit field `X` or `Y`: it selects any of the 16 (R20, R71). -/
abbrev Reg := BitVec 4

/-- The number of a key, 0..15 (R34). -/
abbrev Key := BitVec 4

end Sys2Proof
end

