-- ==== Sys2Proof/Syntax.lean ====
section
/-! DEFINITION. The 34 instructions, one constructor for each row of spec/opcode_table.json (spec/30_encoding.md R75). -/

namespace Sys2Proof

/-- One instruction. Operands are the fields of its format (R73), in the order of the word; `SHR` and `SHL` keep their unused `Y`
field, without which re-encoding would lose it (R78, R82). -/
inductive Instr where
  /-- 00E0 `CLS` (R133). -/
  | cls
  /-- 00EE `RET` (R103). -/
  | ret
  /-- 1NNN `JP NNN` (R101). -/
  | jp (nnn : Imm12)
  /-- 2NNN `CALL NNN` (R102). -/
  | call (nnn : Imm12)
  /-- 3XNN `SE Vx, NN` (R104). -/
  | seImm (x : Reg) (nn : Byte)
  /-- 4XNN `SNE Vx, NN` (R105). -/
  | sneImm (x : Reg) (nn : Byte)
  /-- 5XY0 `SE Vx, Vy` (R106). -/
  | seReg (x y : Reg)
  /-- 6XNN `LD Vx, NN` (R112). -/
  | ldImm (x : Reg) (nn : Byte)
  /-- 7XNN `ADD Vx, NN` (R113). -/
  | addImm (x : Reg) (nn : Byte)
  /-- 8XY0 `LD Vx, Vy` (R114). -/
  | ldReg (x y : Reg)
  /-- 8XY1 `OR Vx, Vy` (R115). -/
  | orReg (x y : Reg)
  /-- 8XY2 `AND Vx, Vy` (R116). -/
  | andReg (x y : Reg)
  /-- 8XY3 `XOR Vx, Vy` (R117). -/
  | xorReg (x y : Reg)
  /-- 8XY4 `ADD Vx, Vy` (R118). -/
  | addReg (x y : Reg)
  /-- 8XY5 `SUB Vx, Vy` (R119). -/
  | subReg (x y : Reg)
  /-- 8XY6 `SHR Vx`, `Y` unused (R120). -/
  | shr (x y : Reg)
  /-- 8XY7 `SUBN Vx, Vy` (R121). -/
  | subnReg (x y : Reg)
  /-- 8XYE `SHL Vx`, `Y` unused (R122). -/
  | shl (x y : Reg)
  /-- 9XY0 `SNE Vx, Vy` (R107). -/
  | sneReg (x y : Reg)
  /-- ANNN `LD I, NNN` (R125). -/
  | ldI (nnn : Imm12)
  /-- BNNN `JP V0, NNN` (R127). -/
  | jpV0 (nnn : Imm12)
  /-- CXNN `RND Vx, NN` (R130). -/
  | rnd (x : Reg) (nn : Byte)
  /-- DXYN `DRW Vx, Vy, N` (R134). -/
  | drw (x y : Reg) (n : Nibble)
  /-- EX9E `SKP Vx` (R140). -/
  | skp (x : Reg)
  /-- EXA1 `SKNP Vx` (R141). -/
  | sknp (x : Reg)
  /-- FX07 `LD Vx, DT` (R150). -/
  | ldVxDt (x : Reg)
  /-- FX0A `LD Vx, K` (R151). -/
  | ldVxK (x : Reg)
  /-- FX15 `LD DT, Vx` (R152). -/
  | ldDtVx (x : Reg)
  /-- FX18 `LD ST, Vx` (R153). -/
  | ldStVx (x : Reg)
  /-- FX1E `ADD I, Vx` (R126). -/
  | addI (x : Reg)
  /-- FX29 `LD F, Vx` (R155). -/
  | ldF (x : Reg)
  /-- FX33 `LD B, Vx` (R156). -/
  | ldB (x : Reg)
  /-- FX55 `LD [I], Vx` (R157). -/
  | storeRegs (x : Reg)
  /-- FX65 `LD Vx, [I]` (R158). -/
  | loadRegs (x : Reg)
  deriving DecidableEq, Repr

end Sys2Proof
end

