-- ==== Sys2Proof/Config.lean ====
section
/-! DEFINITION. What is fixed for one core: the sizes the source fixes, the two parameters it leaves open (FONT, VF_ORDER)
and the two free values (the draw of CXNN, the fill of unwritten memory). spec/00_scope.md section 4, spec/10_state.md R41. -/

namespace Sys2Proof

/-- MEM_SIZE: addresses are 0..4095 (R50). -/
abbrev memSize : Nat := 4096

/-- The size of the glyph font at address 0: 16 glyphs of 5 bytes (R36). -/
abbrev fontSize : Nat := 80

/-- LOAD_BASE, the address a program is loaded at and starts from (R39, R52). -/
abbrev loadBase : Nat := 0x200

/-- MAX_IMAGE, the longest image LOAD accepts (R202, R203). -/
abbrev maxImage : Nat := 3584

/-- VF_ORDER: which write survives when 8XY4/5/6/7/E name register 15 as destination (R111). -/
inductive VfOrder where
  | flagLast
  | resultLast
  deriving DecidableEq, Repr

/-- The two parameters of the core that the source leaves open and that every rule must hold for (R41): the 80 font bytes and
VF_ORDER. They stand in the state as plain data that no event writes, so that a statement about every state is a statement
about every value of them (log entries 6 and 7). -/
structure Config where
  font : Vector Byte fontSize
  vfOrder : VfOrder
  deriving DecidableEq, Repr

/-- RND, the draw of CXNN: a free value, one for each draw, under no law (R131; log entry 4). -/
opaque Config.draw8 : Nat → Byte

/-- MEM_FILL, what a cell that nothing has written since the last initialising event reads as: a free value for each
initialising event and address (R39, R64; log entry 5). -/
opaque Config.memFill : Nat → Nat → Byte

end Sys2Proof
end

