-- ==== Sys2Proof/Machine/Params.lean ====
section
/-! DEFINITION. The values of the two open parameters that spec/ recommends: what `State.reset` starts from. No statement rests on
them (log entries 6 and 7). -/

namespace Sys2Proof.Machine

/-- The 80 bytes of the standard hexadecimal font, four glyphs a line (R36). PRESUMED: general knowledge of the family, not in the
source; unsafe for claims about glyph shapes (log entry 6). -/
def standardFontBytes : List Byte :=
  [0xF0, 0x90, 0x90, 0x90, 0xF0, 0x20, 0x60, 0x20, 0x20, 0x70, 0xF0, 0x10, 0xF0, 0x80, 0xF0, 0xF0, 0x10, 0xF0, 0x10, 0xF0] ++
  [0x90, 0x90, 0xF0, 0x10, 0x10, 0xF0, 0x80, 0xF0, 0x10, 0xF0, 0xF0, 0x80, 0xF0, 0x90, 0xF0, 0xF0, 0x10, 0x20, 0x40, 0x40] ++
  [0xF0, 0x90, 0xF0, 0x90, 0xF0, 0xF0, 0x90, 0xF0, 0x10, 0xF0, 0xF0, 0x90, 0xF0, 0x90, 0x90, 0xE0, 0x90, 0xE0, 0x90, 0xE0] ++
  [0xF0, 0x80, 0x80, 0x80, 0xF0, 0xE0, 0x90, 0x90, 0x90, 0xE0, 0xF0, 0x80, 0xF0, 0x80, 0xF0, 0xF0, 0x80, 0xF0, 0x80, 0x80]

/-- The standard font: glyph `g` at `5 * g` (R36). -/
def standardFont : Vector Byte fontSize :=
  ⟨standardFontBytes.toArray, rfl⟩

/-- The recommended values of FONT and VF_ORDER (R36, R111). DESIGN CHOICE for VF_ORDER: unsafe for claims about an arithmetic
instruction whose destination is register 15 (log entry 7). -/
def recommendedConfig : Config where
  font := standardFont
  vfOrder := .flagLast

end Sys2Proof.Machine
end

