-- ==== Sys2Proof/Machine/State.lean ====
section
/-! DEFINITION. The state of the core as plain data (spec/10_state.md), the events that reach it, what it puts out, and the ways a
step can stop. -/

namespace Sys2Proof.Machine

/-- Why the Engine is halted, with the `info` the spec records (R170). The five faults and the normal halt. -/
inductive Halt where
  /-- Code 0, the normal halt: `pc` is at or past the end of the image (R91, R174). -/
  | endOfProgram (pc : Word)
  /-- Code 1: the fetched word is in no row of the opcode table (R77, R93). -/
  | illegalOpcode (w : Word)
  /-- Code 2: a memory access or a jump target above 4095; `a` is the address the raising rule names (R51, R171). -/
  | addressOutOfRange (a : Nat)
  /-- Code 3: CALL with 16 entries on the stack; `a` is the address of the CALL (R102). -/
  | stackOverflow (a : Word)
  /-- Code 4: RET with an empty stack; `a` is the address of the RET (R103). -/
  | stackUnderflow (a : Word)
  /-- Code 5: a key test with an index above 15 (R142). -/
  | keyIndexOutOfRange (k : Byte)
  deriving DecidableEq, Repr

/-- Whether the Engine executes, waits for a key press that goes to register `r`, or is halted (R31). -/
inductive Status where
  | executing
  | waitingForKey (r : Reg)
  | halted (h : Halt)
  deriving DecidableEq, Repr

/-- The run/idle switch of the host (R32). -/
inductive Mode where
  | launcher
  | running
  deriving DecidableEq, Repr

/-- The six input events (R7). A key index is any integer: an index outside 0..15 is reported and ignored (R143). -/
inductive Event where
  | powerOn
  | load (image : List Byte)
  | resetReq
  | cycle
  | tick
  | key (k : Int) (pressed : Bool)
  deriving DecidableEq, Repr

/-- An entry of the output trace (R8). -/
inductive Output where
  | soundOn
  | soundOff
  | diagInvalidKeyIndex (k : Int)
  | loadErrorOversize
  deriving DecidableEq, Repr

/-- The memory: the cells that hold something else than an unlisted cell does, by rising address. What an unlisted cell reads as is
`State.unwritten` of Machine/Ops.lean. -/
abbrev Memory := List Host.Cell

/-- The framebuffer, 32 rows of 64 cells: `fb[y][x]`, true is on (R30, R132). -/
abbrev Screen := Vector (Vector Bool 64) 32

/-- The framebuffer with every cell off. -/
def Screen.clear : Screen := Vector.replicate 32 (Vector.replicate 64 false)

/-- Everything the spec gives the core (R25), and after it the model's own fields. -/
structure State where
  /-- The general registers; `x[15]` is also the flag (R20, R22). -/
  x : Vector Byte 16
  /-- The index register (R26). -/
  idx : Word
  /-- The program counter (R23). -/
  pc : Word
  /-- The return stack; entry `j` is live iff `j < sp` (R28). -/
  stk : Vector Word 16
  /-- The number of live stack entries, 0..16 (R28). -/
  sp : Fin 17
  /-- The delay timer (R29). -/
  dt : Byte
  /-- The sound timer (R29). -/
  st : Byte
  /-- The framebuffer (R30). -/
  fb : Screen
  /-- The key latch, true is pressed (R34). -/
  key : Vector Bool 16
  /-- Executing, waiting for a key, or halted (R31). -/
  status : Status
  /-- Launcher or Running (R32). -/
  mode : Mode
  /-- One past the last byte of the loaded image (R33). -/
  progEnd : Nat
  /-- The memory (R35, R50). -/
  mem : Memory
  /-- The output trace, oldest entry first; no rule reads it (R8, R37). -/
  out : List Output
  /-- The model's own: the parameters FONT and VF_ORDER, which nothing writes (R41; log entries 6 and 7). -/
  cfg : Config
  /-- The model's own: how many draws CXNN has made (R131; log entry 4). -/
  draws : Nat
  /-- The model's own: how many initialising events have made memory unspecified anew (R39; log entry 5). -/
  fillEpoch : Nat
  /-- The model's own: the events the host has decided on, the next one first; after the last one every event is a CYCLE
  (R7; log entry 1). -/
  events : List Event
  deriving DecidableEq, Repr

/-- The ways the machine is stuck. No instruction raises one: the faults of the spec are next states (`State.raise`). -/
inductive Fault where
  /-- Raised by `handle` on a POWER_ON event: POWER_ON happens once, before every other event, and a second one has no transition
  (R189, R200, U17; log entry 2). Safe: the machine stops where the spec gives nothing. -/
  | powerOnAgain
  deriving DecidableEq, Repr

/-- Reasons the model gives no meaning. -/
inductive Refusal where
  /-- Raised by an arm of `exec` whose instruction has no meaning yet; no arm is left that raises it. Safe. -/
  | notModelled (mnemonic : String)
  deriving DecidableEq, Repr

/-- What one step or one instruction answers. -/
abbrev Result := Host.Outcome State Fault Refusal

/-- The state POWER_ON leaves, for given values of the open parameters: column "after POWER_ON" of R39 (R200). -/
def State.powerOn (cfg : Config) : State where
  x := Vector.replicate 16 0
  idx := 0
  pc := 0x200
  stk := Vector.replicate 16 0
  sp := 0
  dt := 0
  st := 0
  fb := Screen.clear
  key := Vector.replicate 16 false
  status := .executing
  mode := .launcher
  progEnd := loadBase
  mem := []
  out := []
  cfg := cfg
  draws := 0
  fillEpoch := 0
  events := []

/-- The machine right after POWER_ON (R200), with the recommended parameters and no event decided yet. -/
def State.reset : State := State.powerOn recommendedConfig

end Sys2Proof.Machine
end

