-- ==== Sys2Proof/Machine/Ops.lean ====
section
/-! DEFINITION. The named operations over memory, registers, the stack, the timers and the outputs, and taking a fault
(spec/00_scope.md R10, spec/20_memory.md, spec/60_exceptions.md R172). There is no return from a fault (R178). -/

namespace Sys2Proof.Machine

/-! ## Memory -/

/-- The byte a memory lists for an address. -/
def Memory.listed : Memory → Nat → Option Byte
  | [], _ => none
  | (k, b) :: m, a => if k = a then some b else Memory.listed m a

/-- List a byte for an address, in its place by rising address. -/
def Memory.put : Memory → Nat → Byte → Memory
  | [], a, b => [(a, b)]
  | (k, c) :: m, a, b => if a < k then (a, b) :: (k, c) :: m else if a = k then (a, b) :: m else (k, c) :: Memory.put m a b

/-- Unlist an address. -/
def Memory.drop (m : Memory) (a : Nat) : Memory :=
  m.filter (fun c => c.1 ≠ a)

/-- Write one cell and keep the canonical form: the byte an unlisted font cell holds is not listed. -/
def Memory.write (font : Vector Byte fontSize) (m : Memory) (a : Nat) (b : Byte) : Memory :=
  if font[a]? = some b then Memory.drop m a else Memory.put m a b

/-- The canonical form: addresses strictly rise, stay below 4096, and no font cell is listed with the byte it holds unlisted. -/
abbrev Memory.wf (font : Vector Byte fontSize) (m : Memory) : Prop :=
  m.Pairwise (fun c d => c.1 < d.1) ∧ ∀ c ∈ m, c.1 < memSize ∧ font[c.1]? ≠ some c.2

/-- What a cell that nothing has written since the last initialising event holds: its font byte below 0x050, else the free value
MEM_FILL (R39, R64). -/
def State.unwritten (s : State) (a : Nat) : Byte :=
  (s.cfg.font[a]?).getD (Config.memFill s.fillEpoch a)

/-- The byte `mem[a]`. -/
def State.readByte (s : State) (a : Nat) : Byte :=
  (Memory.listed s.mem a).getD (s.unwritten a)

/-- `mem[a] <- b`. Callers have checked that `a` is at most 4095 (R57). -/
def State.writeByte (s : State) (a : Nat) (b : Byte) : State :=
  { s with mem := Memory.write s.cfg.font s.mem a b }

/-- Write bytes at rising addresses from `a`. -/
def State.writeBytes (s : State) (a : Nat) : List Byte → State
  | [] => s
  | b :: bs => State.writeBytes (s.writeByte a b) (a + 1) bs

/-- The `n` bytes at rising addresses from `a`. -/
def State.readBytes (s : State) (a n : Nat) : List Byte :=
  (List.range n).map (fun i => s.readByte (a + i))

/-- `MemRead(a, 1)`: an access above 4095 is the fault `AddressOutOfRange(a)` (R10, R51). -/
def State.memRead1 (s : State) (a : Nat) : Except Halt Byte :=
  if memSize ≤ a then .error (.addressOutOfRange a) else .ok (s.readByte a)

/-- `MemRead(a, 2)`: two bytes, the one at the lower address in bits 15:8 (R10, R54). -/
def State.memRead2 (s : State) (a : Nat) : Except Halt Word :=
  match s.memRead1 a with
  | .error h => .error h
  | .ok hi =>
    match s.memRead1 (a + 1) with
    | .error h => .error h
    | .ok lo => .ok (wordOfBytes hi lo)

/-! ## Registers -/

/-- `x[r]` (R10, R20). -/
def State.reg (s : State) (r : Reg) : Byte :=
  s.x[r.toNat]

/-- `x[r] <- v` (R10, R20). No register is hardwired (R21). -/
def State.setReg (s : State) (r : Reg) (v : Byte) : State :=
  { s with x := s.x.set r.toNat v }

/-- The bytes of the registers `x[0]` to `x[n-1]` (R157). -/
def State.regs (s : State) (n : Nat) : List Byte :=
  (List.range n).map (fun i => s.reg (BitVec.ofNat 4 i))

/-- Load bytes into the registers from number `i` up (R158). -/
def State.setRegs (s : State) (i : Nat) : List Byte → State
  | [] => s
  | b :: bs => State.setRegs (s.setReg (BitVec.ofNat 4 i) b) (i + 1) bs

/-- `key[k]` (R34). -/
def State.keyDown (s : State) (k : Key) : Bool :=
  s.key[k.toNat]

/-- `key[k] <- pressed` (R144). -/
def State.setKey (s : State) (k : Key) (pressed : Bool) : State :=
  { s with key := s.key.set k.toNat pressed }

/-! ## The framebuffer -/

/-- `fb[y][x]` (R132). -/
def Screen.get (f : Screen) (y : Fin 32) (x : Fin 64) : Bool :=
  f[y.val][x.val]

/-- `fb[y][x] <- v` (R132). -/
def Screen.put (f : Screen) (y : Fin 32) (x : Fin 64) (v : Bool) : Screen :=
  f.set y.val (f[y.val].set x.val v)

/-! ## The return stack (R28) -/

/-- Push an address; `none` when 16 entries are held already (R102). -/
def State.push (s : State) (a : Word) : Option State :=
  if h : s.sp.val < 16 then
    some { s with stk := s.stk.set s.sp.val a, sp := ⟨s.sp.val + 1, by omega⟩ }
  else none

/-- Pop the top entry; `none` when the stack is empty (R103). The popped entry keeps its bits. -/
def State.pop (s : State) : Option (Word × State) :=
  if h : 0 < s.sp.val then
    some (s.stk[s.sp.val - 1], { s with sp := ⟨s.sp.val - 1, by omega⟩ })
  else none

/-! ## Outputs and the sound timer -/

/-- `emit e` (R10). -/
def State.emit (s : State) (e : Output) : State :=
  { s with out := s.out ++ [e] }

/-- The edges a change of the sound timer puts out: on at 0 to positive, off at positive to 0, nothing else (R182). -/
def soundEdges (old new : Byte) : List Output :=
  if old = 0 ∧ new ≠ 0 then [.soundOn] else if old ≠ 0 ∧ new = 0 then [.soundOff] else []

/-- `st <- v`, with its edge (R182). Every writer of `st` goes through here. -/
def State.setSt (s : State) (v : Byte) : State :=
  { s with st := v, out := s.out ++ soundEdges s.st v }

/-! ## Taking a fault -/

/-- The code the spec numbers a halt with: 0 is the normal end of a program, 1 to 5 are the faults (R170). -/
def Halt.code : Halt → Nat
  | .endOfProgram _ => 0
  | .illegalOpcode _ => 1
  | .addressOutOfRange _ => 2
  | .stackOverflow _ => 3
  | .stackUnderflow _ => 4
  | .keyIndexOutOfRange _ => 5

/-- Fault entry: `status <- Halted(F, info)`; everything else keeps its value, and `pc` the value fetch gave it (R172, R96). The machine
goes on in this state, so it is a next state. -/
def State.raise (s : State) (h : Halt) : Result :=
  .next { s with status := .halted h }

/-- The whole-range check of a multi-byte instruction: when the last address is above 4095 the fault is taken and nothing else
happens (R57). -/
def State.checkLast (s : State) (last : Nat) (go : Result) : Result :=
  if memSize ≤ last then s.raise (.addressOutOfRange last) else go

end Sys2Proof.Machine
end

