-- ==== Sys2Proof/Machine/Operands.lean ====
section
/-! DEFINITION. Operand forms: zero-extended immediates and registers (spec/30_encoding.md R74), the memory range at `idx`
(spec/20_memory.md R57), the skip (spec/00_scope.md R11) and the digits of FX33. There are no addressing modes in the word. -/

namespace Sys2Proof.Machine

/-- `zext_16(NNN)` (R74). -/
def zextImm (nnn : Imm12) : Word := nnn.setWidth 16

/-- `zext_16(x[X])` (R9). -/
def zextByte (b : Byte) : Word := b.setWidth 16

/-- A key index, zero-extended to 8 bits (R146). -/
def zextKey (k : Key) : Byte := k.setWidth 8

/-- The address A of the instruction in execution: `pc` holds A + 2 (R11). -/
def State.instrAddr (s : State) : Word := s.pc - 2

/-- The last of `n` addresses from `idx`, an unbounded integer (R51, R57). -/
def State.lastAddr (s : State) (n : Nat) : Nat := s.idx.toNat + (n - 1)

/-- How many registers `x[0..X]` are (R157). -/
def regCount (x : Reg) : Nat := x.toNat + 1

/-- Skip the next instruction when the condition holds: `pc <- pc + 2` once more (R11, R79). -/
def State.skipIf (s : State) (c : Bool) : State :=
  if c then { s with pc := s.pc + 2 } else s

/-- Hundreds, tens and units of a byte, one digit a byte (R156). -/
def bcdDigits (v : Byte) : List Byte :=
  [BitVec.ofNat 8 (v.toNat / 100), BitVec.ofNat 8 (v.toNat / 10 % 10), BitVec.ofNat 8 (v.toNat % 10)]

end Sys2Proof.Machine
end

