-- ==== Sys2Proof/Machine/Flags.lean ====
section
/-! DEFINITION. The flag `x[15]`: its values (spec/10_state.md R22) and its writing beside a result (spec/42_arithmetic.md R111). -/

namespace Sys2Proof.Machine

/-- Register 15, the flag (R22). -/
abbrev flagReg : Reg := 15

/-- A flag value, 1 or 0. -/
def flagByte (c : Bool) : Byte := if c then 1 else 0

/-- 8XY4: the unsigned sum exceeds 255 (R118). -/
def carryOut (a b : Byte) : Bool := 255 < a.toNat + b.toNat

/-- 8XY5, 8XY7: minuend at least subtrahend, "no borrow" (R119, R121). -/
def noBorrow (a b : Byte) : Bool := b.toNat ≤ a.toNat

/-- 8XY6: the bit dropped off the low end (R120). -/
def lowBit (a : Byte) : Bool := a.getLsbD 0

/-- 8XYE: the bit dropped off the high end (R122). -/
def highBit (a : Byte) : Bool := a.getLsbD 7

/-- Write a result to `x[X]` and a flag to `x[15]`; when both are register 15 the parameter VF_ORDER says which survives (R111). -/
def State.setResult (s : State) (x : Reg) (result : Byte) (flag : Bool) : State :=
  match s.cfg.vfOrder with
  | .flagLast => (s.setReg x result).setReg flagReg (flagByte flag)
  | .resultLast => (s.setReg flagReg (flagByte flag)).setReg x result

end Sys2Proof.Machine
end

