-- ==== Sys2Proof/Machine/Arithmetic.lean ====
section
/-! DEFINITION. Register load and arithmetic (spec/42_arithmetic.md). All sources are read at entry, results wrap modulo 256 (R110). -/

namespace Sys2Proof.Machine

/-- 6XNN `LD Vx, NN` (R112). -/
def execLdImm (x : Reg) (nn : Byte) (s : State) : Result :=
  .next (s.setReg x nn)

/-- 7XNN `ADD Vx, NN`: the carry is discarded, no flag (R113). -/
def execAddImm (x : Reg) (nn : Byte) (s : State) : Result :=
  .next (s.setReg x (s.reg x + nn))

/-- 8XY0 `LD Vx, Vy` (R114). -/
def execLdReg (x y : Reg) (s : State) : Result :=
  .next (s.setReg x (s.reg y))

/-- 8XY1 `OR Vx, Vy`, no flag (R115). -/
def execOrReg (x y : Reg) (s : State) : Result :=
  .next (s.setReg x (s.reg x ||| s.reg y))

/-- 8XY2 `AND Vx, Vy`, no flag (R116). -/
def execAndReg (x y : Reg) (s : State) : Result :=
  .next (s.setReg x (s.reg x &&& s.reg y))

/-- 8XY3 `XOR Vx, Vy`, no flag (R117). -/
def execXorReg (x y : Reg) (s : State) : Result :=
  .next (s.setReg x (s.reg x ^^^ s.reg y))

/-- 8XY4 `ADD Vx, Vy`: flag is the carry out; no carry in (R118). -/
def execAddReg (x y : Reg) (s : State) : Result :=
  .next (s.setResult x (s.reg x + s.reg y) (carryOut (s.reg x) (s.reg y)))

/-- 8XY5 `SUB Vx, Vy`: minuend `x[X]`, subtrahend `x[Y]` (R119). -/
def execSubReg (x y : Reg) (s : State) : Result :=
  .next (s.setResult x (s.reg x - s.reg y) (noBorrow (s.reg x) (s.reg y)))

/-- 8XY6 `SHR Vx`: `Y` is decoded and not used (R78, R120). -/
def execShr (x _y : Reg) (s : State) : Result :=
  .next (s.setResult x (s.reg x >>> 1) (lowBit (s.reg x)))

/-- 8XY7 `SUBN Vx, Vy`: minuend `x[Y]`, subtrahend `x[X]` (R121). -/
def execSubnReg (x y : Reg) (s : State) : Result :=
  .next (s.setResult x (s.reg y - s.reg x) (noBorrow (s.reg y) (s.reg x)))

/-- 8XYE `SHL Vx`: `Y` is decoded and not used (R78, R122). -/
def execShl (x _y : Reg) (s : State) : Result :=
  .next (s.setResult x (s.reg x <<< 1) (highBit (s.reg x)))

end Sys2Proof.Machine
end

