-- ==== Sys2Proof/Machine/ControlFlow.lean ====
section
/-! DEFINITION. Control flow: jump, call, return, conditional skips (spec/41_control_flow.md). Every meaning is entered with `pc = A + 2`
(R11, R100). -/

namespace Sys2Proof.Machine

/-- 1NNN `JP NNN` (R101). -/
def execJp (nnn : Imm12) (s : State) : Result :=
  .next { s with pc := zextImm nnn }

/-- 2NNN `CALL NNN`: the return address A + 2 is pushed; the 17th nested call is StackOverflow(A) (R102). -/
def execCall (nnn : Imm12) (s : State) : Result :=
  match s.push s.pc with
  | some t => .next { t with pc := zextImm nnn }
  | none => s.raise (.stackOverflow s.instrAddr)

/-- 00EE `RET`: on an empty stack StackUnderflow(A) (R103). -/
def execRet (s : State) : Result :=
  match s.pop with
  | some (a, t) => .next { t with pc := a }
  | none => s.raise (.stackUnderflow s.instrAddr)

/-- 3XNN `SE Vx, NN` (R104). -/
def execSeImm (x : Reg) (nn : Byte) (s : State) : Result :=
  .next (s.skipIf (s.reg x == nn))

/-- 4XNN `SNE Vx, NN` (R105). -/
def execSneImm (x : Reg) (nn : Byte) (s : State) : Result :=
  .next (s.skipIf (s.reg x != nn))

/-- 5XY0 `SE Vx, Vy` (R106). -/
def execSeReg (x y : Reg) (s : State) : Result :=
  .next (s.skipIf (s.reg x == s.reg y))

/-- 9XY0 `SNE Vx, Vy` (R107). -/
def execSneReg (x y : Reg) (s : State) : Result :=
  .next (s.skipIf (s.reg x != s.reg y))

end Sys2Proof.Machine
end

