-- ==== Sys2Proof/Machine/Display.lean ====
section
/-! DEFINITION. The framebuffer instructions (spec/45_display.md). -/

namespace Sys2Proof.Machine

/-- The sprite bit at column offset `c`: bit 7 is offset 0 (R135). -/
def spriteBit (b : Byte) (c : Nat) : Bool :=
  b.getLsbD (7 - c)

/-- XOR an on bit into one cell; the second component records whether a cell went from on to off (R134). -/
def plot (p : Screen × Bool) (y : Fin 32) (x : Fin 64) : Screen × Bool :=
  (Screen.put p.1 y x (!Screen.get p.1 y x), p.2 || Screen.get p.1 y x)

/-- One sprite row of 8 columns from column `ox`, wrapped modulo 64 (R134, R135). -/
def drawRow (ox : Nat) (y : Fin 32) (b : Byte) (p : Screen × Bool) : Screen × Bool :=
  (List.range 8).foldl (fun p c => if spriteBit b c then plot p y (Fin.ofNat 64 (ox + c)) else p) p

/-- Sprite rows from row `oy`, wrapped modulo 32 (R134, R135). -/
def drawRows (ox oy : Nat) : List Byte → Screen × Bool → Screen × Bool
  | [], p => p
  | b :: bs, p => drawRows ox (oy + 1) bs (drawRow ox (Fin.ofNat 32 oy) b p)

/-- Draw a sprite at (`ox`, `oy`) and leave the collision flag in `x[15]` (R134, R136). -/
def State.drawSprite (s : State) (ox oy : Byte) (sprite : List Byte) : State :=
  let p := drawRows ox.toNat oy.toNat sprite (s.fb, false)
  { s with fb := p.1 }.setReg flagReg (flagByte p.2)

/-- 00E0 `CLS` (R133). -/
def execCls (s : State) : Result :=
  .next { s with fb := Screen.clear }

/-- DXYN `DRW Vx, Vy, N`: the coordinates are read before the flag is written (R136); with N = 0 no byte is read and no fault is
possible, else the last sprite byte is checked first (R137). -/
def execDrw (x y : Reg) (n : Nibble) (s : State) : Result :=
  let drawn := s.drawSprite (s.reg x) (s.reg y) (s.readBytes s.idx.toNat n.toNat)
  if n = 0 then .next drawn else s.checkLast (s.lastAddr n.toNat) (.next drawn)

end Sys2Proof.Machine
end

