-- ==== Sys2Proof/Machine/IndexAddressing.lean ====
section
/-! DEFINITION. The index register and the indexed jump (spec/43_index_addressing.md). -/

namespace Sys2Proof.Machine

/-- ANNN `LD I, NNN` (R125). -/
def execLdI (nnn : Imm12) (s : State) : Result :=
  .next { s with idx := zextImm nnn }

/-- FX1E `ADD I, Vx`: masked to 12 bits, no flag (R126). -/
def execAddI (x : Reg) (s : State) : Result :=
  .next { s with idx := (s.idx + zextByte (s.reg x)) &&& 0x0FFF }

/-- BNNN `JP V0, NNN`: a target above 4095 is AddressOutOfRange(t) (R127). -/
def execJpV0 (nnn : Imm12) (s : State) : Result :=
  let t := nnn.toNat + (s.reg 0).toNat
  if memSize ≤ t then s.raise (.addressOutOfRange t) else .next { s with pc := BitVec.ofNat 16 t }

end Sys2Proof.Machine
end

