-- ==== Sys2Proof/Machine/KeyInput.lean ====
section
/-! DEFINITION. The key tests (spec/46_key_input.md section 1). The KEY event is in Machine/Events.lean. -/

namespace Sys2Proof.Machine

/-- A key test: an index above 15 is KeyIndexOutOfRange, the index is not reduced (R142); else skip when the key's latch bit is
`want` (R140, R141). -/
def State.keyTest (s : State) (k : Byte) (want : Bool) : Result :=
  if 15 < k.toNat then s.raise (.keyIndexOutOfRange k)
  else .next (s.skipIf (s.keyDown (k.setWidth 4) == want))

/-- EX9E `SKP Vx` (R140). -/
def execSkp (x : Reg) (s : State) : Result :=
  s.keyTest (s.reg x) true

/-- EXA1 `SKNP Vx` (R141). -/
def execSknp (x : Reg) (s : State) : Result :=
  s.keyTest (s.reg x) false

end Sys2Proof.Machine
end

