-- ==== Sys2Proof/Machine/Random.lean ====
section
/-! DEFINITION. The random instruction (spec/44_random.md). -/

namespace Sys2Proof.Machine

/-- `draw8()`: the next free byte, and the state with the draw counted (R131; log entry 4). -/
def State.draw (s : State) : Byte × State :=
  (Config.draw8 s.draws, { s with draws := s.draws + 1 })

/-- CXNN `RND Vx, NN`: a free byte, masked (R130). -/
def execRnd (x : Reg) (nn : Byte) (s : State) : Result :=
  let (r, t) := s.draw
  .next (t.setReg x (r &&& nn))

end Sys2Proof.Machine
end

