-- ==== Sys2Proof/Machine/TimerMemory.lean ====
section
/-! DEFINITION. The timer and memory family (spec/47_timer_memory.md). `idx` is left as it was by all but FX29 (R159). -/

namespace Sys2Proof.Machine

/-- FX07 `LD Vx, DT` (R150). -/
def execLdVxDt (x : Reg) (s : State) : Result :=
  .next (s.setReg x s.dt)

/-- FX0A `LD Vx, K`: `pc` goes back to the instruction and the wait stands in `status`; the register is written by the KEY event that
ends the wait (R151, R146). -/
def execLdVxK (x : Reg) (s : State) : Result :=
  .next { s with pc := s.instrAddr, status := .waitingForKey x }

/-- FX15 `LD DT, Vx` (R152). -/
def execLdDtVx (x : Reg) (s : State) : Result :=
  .next { s with dt := s.reg x }

/-- FX18 `LD ST, Vx`, with the sound edge (R153, R182). -/
def execLdStVx (x : Reg) (s : State) : Result :=
  .next (s.setSt (s.reg x))

/-- FX29 `LD F, Vx`: five times the register, unmasked (R155). -/
def execLdF (x : Reg) (s : State) : Result :=
  .next { s with idx := 5 * zextByte (s.reg x) }

/-- FX33 `LD B, Vx` (R156). -/
def execLdB (x : Reg) (s : State) : Result :=
  s.checkLast (s.lastAddr 3) (.next (s.writeBytes s.idx.toNat (bcdDigits (s.reg x))))

/-- FX55 `LD [I], Vx` (R157). -/
def execStoreRegs (x : Reg) (s : State) : Result :=
  s.checkLast (s.lastAddr (regCount x)) (.next (s.writeBytes s.idx.toNat (s.regs (regCount x))))

/-- FX65 `LD Vx, [I]` (R158). -/
def execLoadRegs (x : Reg) (s : State) : Result :=
  s.checkLast (s.lastAddr (regCount x)) (.next (s.setRegs 0 (s.readBytes s.idx.toNat (regCount x))))

end Sys2Proof.Machine
end

