-- ==== Sys2Proof/Machine/Events.lean ====
section
/-! DEFINITION. The host's events other than CYCLE: TICK (spec/60_exceptions.md R181), KEY (spec/46_key_input.md section 2), LOAD and RESET_REQ
(spec/70_reset_and_hazards.md). Each is one atomic update (spec/00_scope.md R7). -/

namespace Sys2Proof.Machine

/-! ## TICK -/

/-- The sound output level (R182). -/
def State.sound (s : State) : Bool := s.st != 0

/-- One down, never below zero (R181). -/
def countDown (b : Byte) : Byte := if b = 0 then 0 else b - 1

/-- TICK: both timers count down in every `status` while Running; SoundOff when `st` reaches 0 (R181). -/
def State.tick (s : State) : State :=
  match s.mode with
  | .launcher => s
  | .running => { s with dt := countDown s.dt }.setSt (countDown s.st)

/-! ## KEY -/

/-- A press event resumes a key-wait: the key's index goes to the waiting register and `pc` past the FX0A (R146). -/
def State.pressEvent (s : State) (k : Key) : State :=
  match s.status with
  | .waitingForKey r => { s.setReg r (zextKey k) with pc := s.pc + 2, status := .executing }
  | .executing => s
  | .halted _ => s

/-- Latch update; only a key that goes from released to pressed is a press event (R144, R145). -/
def State.latch (s : State) (k : Key) (pressed : Bool) : State :=
  if pressed && !s.keyDown k then (s.setKey k pressed).pressEvent k else s.setKey k pressed

/-- KEY: nothing in Launcher (R147); an index outside 0..15 is reported and ignored (R143). -/
def State.keyEvent (s : State) (k : Int) (pressed : Bool) : State :=
  match s.mode with
  | .launcher => s
  | .running =>
    if k < 0 ∨ 15 < k then s.emit (.diagInvalidKeyIndex k) else s.latch (BitVec.ofNat 4 k.toNat) pressed

/-! ## LOAD and RESET_REQ -/

/-- What an initialising event forgets of memory: every cell but the font's becomes unspecified (R205, R209). -/
def Memory.fontCells (m : Memory) : Memory :=
  m.filter (fun c => c.1 < fontSize)

/-- The cells of an image laid out from an address (R204). -/
def imageCells (a : Nat) : List Byte → Memory
  | [] => []
  | b :: bs => (a, b) :: imageCells (a + 1) bs

/-- What LOAD and RESET_REQ have in common: registers, stack, timers, framebuffer and status as at power-on, memory outside the font
unspecified anew, SoundOff if the tone was on (R204, R208, R182). The key latch and the font cells stay (R206, R209). -/
def State.clearRun (s : State) : State :=
  { s.setSt 0 with
    x := Vector.replicate 16 0
    idx := 0
    pc := 0x200
    sp := 0
    stk := Vector.replicate 16 0
    dt := 0
    fb := Screen.clear
    status := .executing
    mem := Memory.fontCells s.mem
    fillEpoch := s.fillEpoch + 1 }

/-- LOAD: no-op in Running (R202); an image of more than 3584 bytes is reported and changes nothing (R203); else the image lies at
0x200 and the run starts (R204). -/
def State.load (s : State) (image : List Byte) : State :=
  match s.mode with
  | .running => s
  | .launcher =>
    if maxImage < image.length then s.emit .loadErrorOversize
    else
      { s.clearRun with
        mem := Memory.fontCells s.mem ++ imageCells loadBase image
        progEnd := loadBase + image.length
        mode := .running }

/-- RESET_REQ: no-op in Launcher (R207); else back to Launcher in every `status` (R208). -/
def State.resetRequest (s : State) : State :=
  match s.mode with
  | .launcher => s
  | .running => { s.clearRun with progEnd := loadBase, mode := .launcher }

end Sys2Proof.Machine
end

