-- ==== Sys2Proof/Machine/Cycle.lean ====
section
/-! DEFINITION. The CYCLE event: gating, end of program, fetch, decode, execute (spec/40_cycle_fetch_decode.md), and the handling of every
event (spec/00_scope.md R7). -/

namespace Sys2Proof.Machine

/-- Decode and execute a fetched word, `pc` already advanced; an illegal word is IllegalOpcode(w) (R93, R94). -/
def runWord (w : Word) (s : State) : Result :=
  match decodeWord w with
  | .ok i => exec i s
  | .error _ => s.raise (.illegalOpcode w)

/-- One instruction: the end of the program is checked before anything is read (R91); a fetch fault leaves `pc` (R92); else `pc` is
advanced by 2 before decode (R92). -/
def stepEngine (s : State) : Result :=
  if s.progEnd ≤ s.pc.toNat then s.raise (.endOfProgram s.pc)
  else
    match s.memRead2 s.pc.toNat with
    | .error h => s.raise h
    | .ok w => runWord w { s with pc := s.pc + 2 }

/-- CYCLE: one instruction if Running and Executing, else a no-op (R90). -/
def cycle (s : State) : Result :=
  if s.mode = .running ∧ s.status = .executing then stepEngine s else .next s

/-- One event (R7). POWER_ON is `State.powerOn`; as an event after it there is no transition (R189, U17). -/
def handle (e : Event) (s : State) : Result :=
  match e with
  | .powerOn => .fault .powerOnAgain
  | .load image => .next (s.load image)
  | .resetReq => .next s.resetRequest
  | .cycle => cycle s
  | .tick => .next s.tick
  | .key k pressed => .next (s.keyEvent k pressed)

/-- The event the host delivers next, and the state without it: CYCLE when the host has decided on none (log entry 1). -/
def State.nextEvent (s : State) : Event × State :=
  match s.events with
  | [] => (.cycle, s)
  | e :: es => (e, { s with events := es })

/-- Deliver the next event. -/
def deliver (s : State) : Result :=
  let (e, t) := s.nextEvent
  handle e t

/-! ## Placing an instruction where the next step fetches -/

/-- The event list that begins with a CYCLE. -/
def cycleNext : List Event → List Event
  | [] => []
  | .cycle :: es => .cycle :: es
  | e :: es => .cycle :: e :: es

/-- A state whose next step runs the instruction word `w`: the word at `pc`, high byte first, inside a loaded image of a running
program, and CYCLE as the next event. It stands for the LOAD that brings a program in (log entry 3). Where the two bytes at `pc` are
not both in the address space no instruction can be fetched, and the state is left as it is. -/
def State.placeWord (s : State) (w : Word) : State :=
  if s.pc.toNat + 2 ≤ memSize then
    { s.writeBytes s.pc.toNat [highByte w, lowByte w] with
      mode := .running
      status := .executing
      progEnd := max s.progEnd (s.pc.toNat + 2)
      events := cycleNext s.events }
  else s

end Sys2Proof.Machine
end

