-- ==== Sys2Proof/Machine/Step.lean ====
section
/-! DEFINITION. One step of the machine: the host's next event, handled as one atomic transition (spec/00_scope.md R7). -/

namespace Sys2Proof.Machine

/-- One step: the next event of the host. It answers a next state for every event but a second POWER_ON. -/
def step (s : State) : Host.Outcome State Fault Refusal :=
  deliver s

/-- The state whose next step runs the table word `w` of `nbits` bits (the bits above are 0). -/
def State.withFetchWord (s : State) (nbits w : Nat) : State :=
  s.placeWord (BitVec.ofNat 16 (w % 2 ^ nbits))

end Sys2Proof.Machine
end

