-- ==== Sys2Proof/Safety.lean ====
section
/-! DEFINITION. The terms claims are stated in: the invariants of spec/10_state.md R40, the sound edges of spec/60_exceptions.md R182, which
fault an instruction raises when (R171), and which instruction may write which element (R22, R25). -/

namespace Sys2Proof.Machine

/-- The instruction word in memory at an address, high byte first (R54). -/
def State.wordAt (s : State) (a : Nat) : Word :=
  wordOfBytes (s.readByte a) (s.readByte (a + 1))

/-- The invariants of R40; `sp` is at most 16 by its type. -/
structure State.Inv (s : State) : Prop where
  /-- `idx ≤ 0xFFF` (R27). -/
  idx_le : s.idx.toNat ≤ 0xFFF
  /-- `pc ≤ 4098` (R24). -/
  pc_le : s.pc.toNat ≤ 4098
  /-- `0x200 ≤ prog_end` (R33). -/
  progEnd_ge : 0x200 ≤ s.progEnd
  /-- `prog_end ≤ 0x1000` (R33). -/
  progEnd_le : s.progEnd ≤ 0x1000
  /-- Every live stack entry is at most 4096. -/
  stk_le : ∀ (j : Nat) (h : j < 16), j < s.sp.val → s.stk[j].toNat ≤ 4096
  /-- In Launcher the core is idle and canonical (R32). -/
  launcher : s.mode = .launcher → s.status = .executing ∧ s.dt = 0 ∧ s.st = 0 ∧ s.sp = 0 ∧ s.pc = 0x200
  /-- While waiting, `pc` is the address of the FX0A word, inside the address space (R23, R151). -/
  waiting : ∀ r, s.status = .waitingForKey r → s.pc.toNat ≤ 4094 ∧ decodeWord (s.wordAt s.pc.toNat) = .ok (.ldVxK r)

/-- The sound level a trace leaves when it starts from `level`; `none` if an edge does not change the level (R182). -/
def soundLevelFrom : Bool → List Output → Option Bool
  | level, [] => some level
  | level, .soundOn :: out => if level then none else soundLevelFrom true out
  | level, .soundOff :: out => if level then soundLevelFrom false out else none
  | level, .diagInvalidKeyIndex _ :: out => soundLevelFrom level out
  | level, .loadErrorOversize :: out => soundLevelFrom level out

/-- In the trace SoundOn and SoundOff strictly alternate, starting with SoundOn, and the level they leave is `st > 0` (R182). -/
def State.SoundInv (s : State) : Prop :=
  soundLevelFrom false s.out = some s.sound

/-- The next event is a CYCLE: the host has put it first, or has decided on none (R7; log entry 1). -/
def State.CycleNext (s : State) : Prop :=
  s.nextEvent.1 = .cycle

/-- The Engine executes: Running, Executing, and the next event is a CYCLE (R90). -/
structure State.Ready (s : State) : Prop where
  running : s.mode = .running
  executing : s.status = .executing
  cycleNext : s.CycleNext

/-- The state without the event that is handled. -/
def State.afterEvent (s : State) : State := s.nextEvent.2

/-- The fault an instruction raises in a state it is executed in, row by row of R171; `none` where it completes. -/
def faultOf (i : Instr) (s : State) : Option Halt :=
  match i with
  | .call _ => if s.sp.val = 16 then some (.stackOverflow (s.pc - 2)) else none
  | .ret => if s.sp.val = 0 then some (.stackUnderflow (s.pc - 2)) else none
  | .jpV0 nnn =>
    if 4095 < nnn.toNat + (s.reg 0).toNat then some (.addressOutOfRange (nnn.toNat + (s.reg 0).toNat)) else none
  | .drw _ _ n =>
    if 1 ≤ n.toNat ∧ 4095 < s.idx.toNat + n.toNat - 1 then some (.addressOutOfRange (s.idx.toNat + n.toNat - 1)) else none
  | .ldB _ => if 4095 < s.idx.toNat + 2 then some (.addressOutOfRange (s.idx.toNat + 2)) else none
  | .storeRegs x => if 4095 < s.idx.toNat + x.toNat then some (.addressOutOfRange (s.idx.toNat + x.toNat)) else none
  | .loadRegs x => if 4095 < s.idx.toNat + x.toNat then some (.addressOutOfRange (s.idx.toNat + x.toNat)) else none
  | .skp x => if 15 < (s.reg x).toNat then some (.keyIndexOutOfRange (s.reg x)) else none
  | .sknp x => if 15 < (s.reg x).toNat then some (.keyIndexOutOfRange (s.reg x)) else none
  | .cls | .jp _ | .seImm _ _ | .sneImm _ _ | .seReg _ _ | .sneReg _ _ | .ldImm _ _ | .addImm _ _ | .ldReg _ _ | .orReg _ _
  | .andReg _ _ | .xorReg _ _ | .addReg _ _ | .subReg _ _ | .shr _ _ | .subnReg _ _ | .shl _ _ | .ldI _ | .rnd _ _
  | .ldVxDt _ | .ldVxK _ | .ldDtVx _ | .ldStVx _ | .addI _ | .ldF _ => none

/-- The instruction names register `r` as its destination, or reaches it in a bulk load (R22). -/
def namesDestination (i : Instr) (r : Reg) : Bool :=
  match i with
  | .ldImm x _ | .addImm x _ | .ldReg x _ | .orReg x _ | .andReg x _ | .xorReg x _ | .addReg x _ | .subReg x _ | .shr x _
  | .subnReg x _ | .shl x _ | .rnd x _ | .ldVxDt x => r == x
  | .loadRegs x => r.toNat ≤ x.toNat
  | .cls | .ret | .jp _ | .call _ | .seImm _ _ | .sneImm _ _ | .seReg _ _ | .sneReg _ _ | .ldI _ | .jpV0 _ | .drw _ _ _ | .skp _
  | .sknp _ | .ldVxK _ | .ldDtVx _ | .ldStVx _ | .addI _ | .ldF _ | .ldB _ | .storeRegs _ => false

/-- The instructions that write `x[15]` as a flag: the complete list of R22. -/
def writesFlag (i : Instr) : Bool :=
  match i with
  | .addReg _ _ | .subReg _ _ | .shr _ _ | .subnReg _ _ | .shl _ _ | .drw _ _ _ => true
  | .cls | .ret | .jp _ | .call _ | .seImm _ _ | .sneImm _ _ | .seReg _ _ | .sneReg _ _ | .ldImm _ _ | .addImm _ _ | .ldReg _ _
  | .orReg _ _ | .andReg _ _ | .xorReg _ _ | .ldI _ | .jpV0 _ | .rnd _ _ | .skp _ | .sknp _ | .ldVxDt _ | .ldVxK _ | .ldDtVx _
  | .ldStVx _ | .addI _ | .ldF _ | .ldB _ | .storeRegs _ | .loadRegs _ => false

/-- A taken control transfer other than a skip: jump, call, return, indexed jump (R24). -/
def isJump (i : Instr) : Prop :=
  (∃ nnn, i = .jp nnn) ∨ (∃ nnn, i = .call nnn) ∨ i = .ret ∨ ∃ nnn, i = .jpV0 nnn

/-- A conditional skip: 3XNN, 4XNN, 5XY0, 9XY0, EX9E, EXA1. -/
def isSkip (i : Instr) : Prop :=
  (∃ x nn, i = .seImm x nn) ∨ (∃ x nn, i = .sneImm x nn) ∨ (∃ x y, i = .seReg x y) ∨ (∃ x y, i = .sneReg x y) ∨
    (∃ x, i = .skp x) ∨ ∃ x, i = .sknp x

/-- After an instruction with a flag: `x[X]` holds the result and `x[15]` the flag; when X is 15 the parameter VF_ORDER says which of
the two `x[15]` holds; nothing else differs (R110, R111). -/
def ResultAndFlag (s t : State) (x : Reg) (result : Byte) (flag : Prop) [Decidable flag] : Prop :=
  (∀ r, t.reg r =
    if r = 15 ∧ (x ≠ 15 ∨ s.cfg.vfOrder = .flagLast) then (if flag then 1 else 0)
    else if r = x then result else s.reg r) ∧
  t = { s with x := t.x }

/-- The sprite of `n` bytes at `idx`, drawn at (`ox`, `oy`), covers the cell in row `y` and column `x` with an on bit: some row `r` and
column offset `c` land there with wrapping, and bit `7 - c` of byte `r` is 1 (R134, R135). -/
def State.Covers (s : State) (ox oy : Byte) (n : Nat) (y : Fin 32) (x : Fin 64) : Prop :=
  ∃ r c : Nat, r < n ∧ c < 8 ∧ (ox.toNat + c) % 64 = x.val ∧ (oy.toNat + r) % 32 = y.val ∧
    (s.readByte (s.idx.toNat + r)).getLsbD (7 - c) = true

end Sys2Proof.Machine
end

