-- ==== Sys2Proof/Certificates/Slice0/Obligations.lean ====
section
/-! DEFINITION. The statements for the provers. A statement about an instruction is about `exec`, which is entered with `pc = A + 2`
(spec/00_scope.md R11); a statement about an event is about `handle`; `t = { s with f := t.f }` says that nothing but `f` differs,
so that every other register, every byte of memory and every other element is what it was. -/

open Sys2Proof
open Sys2Proof.Machine

/-! ## Encoding -/

/-- Words written out from the table of R75 and example S1 of 95_test_vectors.md decode to the instructions they stand for. -/
def Obligations.WordsOfTheTableDecode : Prop :=
  decodeWord 0x00E0 = .ok .cls ∧ decodeWord 0x00EE = .ok .ret ∧ decodeWord 0x1ABC = .ok (.jp 0xABC) ∧
  decodeWord 0x3A42 = .ok (.seImm 0xA 0x42) ∧ decodeWord 0x8AB4 = .ok (.addReg 0xA 0xB) ∧
  decodeWord 0x84A6 = .ok (.shr 0x4 0xA) ∧ decodeWord 0xBFFF = .ok (.jpV0 0xFFF) ∧ decodeWord 0xC00F = .ok (.rnd 0x0 0x0F) ∧
  decodeWord 0xD12F = .ok (.drw 0x1 0x2 0xF) ∧ decodeWord 0xE59E = .ok (.skp 0x5) ∧ decodeWord 0xF533 = .ok (.ldB 0x5) ∧
  decodeWord 0xF21E = .ok (.addI 0x2)

/-- Every instruction is decoded from its own word, and from its two bytes, high byte first, whatever follows them. -/
def Obligations.DecodeOfEncodeIsTheInstruction : Prop :=
  ∀ (i : Instr) (rest : List Byte),
    decodeWord (encode i) = .ok i ∧
    decode (BitVec.ofNat 8 ((encode i).toNat / 256) :: BitVec.ofNat 8 ((encode i).toNat % 256) :: rest) = .ok (i, rest)

/-- Every legal word is encoded again from the instruction it decodes to (R82). -/
def Obligations.EncodeOfDecodeIsTheWord : Prop :=
  ∀ (w : Word) (i : Instr), decodeWord w = .ok i → encode i = w

/-- The decoder and the opcode table agree: a word decodes to an instruction of a row exactly if that row, and then no other, accepts
it (R75). -/
def Obligations.DecoderAgreesWithTheOpcodeTable : Prop :=
  (∀ (w : Word) (i : Instr), decodeWord w = .ok i → rowOf i ∈ opcodeTable ∧ ∀ r ∈ opcodeTable, r.accepts w = true ↔ r = rowOf i) ∧
  (∀ (w : Word) (r : Row), r ∈ opcodeTable → r.accepts w = true → ∃ i, decodeWord w = .ok i)

/-- The illegal words are exactly those of R77, family by family. That family 0 compares the whole word is the spec's own decision D10
(log entry 9). -/
def Obligations.IllegalWordsAreExactlyTheListed : Prop :=
  ∀ w : Word,
    decodeWord w = .error (.illegalOpcode w) ↔
      (w.toNat / 0x1000 = 0x0 ∧ w.toNat ≠ 0x00E0 ∧ w.toNat ≠ 0x00EE) ∨
      (w.toNat / 0x1000 = 0x5 ∧ w.toNat % 0x10 ≠ 0) ∨
      (w.toNat / 0x1000 = 0x8 ∧ w.toNat % 0x10 ∈ [0x8, 0x9, 0xA, 0xB, 0xC, 0xD, 0xF]) ∨
      (w.toNat / 0x1000 = 0x9 ∧ w.toNat % 0x10 ≠ 0) ∨
      (w.toNat / 0x1000 = 0xE ∧ w.toNat % 0x100 ∉ [0x9E, 0xA1]) ∨
      (w.toNat / 0x1000 = 0xF ∧ w.toNat % 0x100 ∉ [0x07, 0x0A, 0x15, 0x18, 0x1E, 0x29, 0x33, 0x55, 0x65])

/-! ## One step, one CYCLE -/

/-- A step delivers the next event of the host; where the host has decided on none it is a CYCLE. The event list is the model's own
(log entry 1); that events are handled one at a time is R7. -/
def Obligations.StepDeliversTheNextEvent : Prop :=
  ∀ s : State,
    (∀ (e : Event) (es : List Event), s.events = e :: es → step s = handle e { s with events := es }) ∧
    (s.events = [] → step s = handle .cycle s)

/-- When the two bytes at `pc` decode to an instruction, inside the image of a running program, a step is `exec` of that instruction
with `pc` advanced by 2 and the CYCLE event taken from the event list. -/
def Obligations.StepRunsTheDecodedInstruction : Prop :=
  ∀ (s : State) (i : Instr),
    s.Ready → s.pc.toNat < s.progEnd → s.pc.toNat ≤ 4094 →
    decodeWord (BitVec.ofNat 16 (256 * (s.readByte s.pc.toNat).toNat + (s.readByte (s.pc.toNat + 1)).toNat)) = .ok i →
    step s = exec i { s with pc := s.pc + 2, events := s.events.tail }

/-- Every step answers a next state, but for a second POWER_ON, which has no transition (log entry 2). -/
def Obligations.EveryStepGoesOn : Prop :=
  ∀ s : State, (∃ t, step s = .next t) ∨ (s.nextEvent.1 = .powerOn ∧ step s = .fault .powerOnAgain)

/-- A CYCLE is a no-op unless Running and Executing; then it is one `step()`, whose parts the next two statements give (R90). -/
def Obligations.CycleIsGated : Prop :=
  ∀ s : State,
    (s.mode ≠ .running ∨ s.status ≠ .executing → handle .cycle s = .next s) ∧
    (s.mode = .running → s.status = .executing → handle .cycle s = stepEngine s)

/-- The end-of-program halt comes before anything is read and changes `status` alone (R91; its moment and the recorded `pc` are the spec's
own decisions D4 and D35, log entry 9). -/
def Obligations.EndOfProgramHaltsBeforeFetch : Prop :=
  ∀ s : State, s.mode = .running → s.status = .executing → s.progEnd ≤ s.pc.toNat →
    handle .cycle s = .next { s with status := .halted (.endOfProgram s.pc) }

/-- Fetch takes the big-endian word `w` at `pc` and advances `pc` by 2 before the instruction executes; an illegal word halts with that word
and `pc` past it, and nothing else changes (R54, R92, R93, R94). The word recorded with the halt is the spec's own decision D35 (log
entry 9). -/
def Obligations.FetchDecodeExecute : Prop :=
  ∀ (s : State) (w : Word), s.mode = .running → s.status = .executing → s.pc.toNat < s.progEnd → s.pc.toNat ≤ 4094 →
    w.toNat = 256 * (s.readByte s.pc.toNat).toNat + (s.readByte (s.pc.toNat + 1)).toNat →
    (∀ i, decodeWord w = .ok i → handle .cycle s = exec i { s with pc := s.pc + 2 }) ∧
    ((∀ i, decodeWord w ≠ .ok i) → handle .cycle s = .next { s with pc := s.pc + 2, status := .halted (.illegalOpcode w) })

/-- A fetch at 4095 faults with 4096 (R92); that `pc` stays there is the spec's own decision D6, the recorded address D35 (log entry 9). -/
def Obligations.FetchFaultsAtTheLastAddress : Prop :=
  ∀ s : State, s.mode = .running → s.status = .executing → s.pc.toNat < s.progEnd → s.pc.toNat = 4095 →
    handle .cycle s = .next { s with status := .halted (.addressOutOfRange 4096) }

/-! ## Control flow -/

/-- 1NNN (R101). -/
def Obligations.JumpGoesToItsAddress : Prop :=
  ∀ (nnn : Imm12) (s : State),
    decodeWord (0x1#4 ++ nnn) = .ok (.jp nnn) ∧
    ∃ t, exec (.jp nnn) s = .next t ∧ t.pc.toNat = nnn.toNat ∧ t = { s with pc := t.pc }

/-- 2NNN (R102). Which entry is written is the spec's own decision D17, the recorded address D35, that a fault has no partial effect D6
(log entries 8 and 9). -/
def Obligations.CallPushesTheReturnAddress : Prop :=
  ∀ (nnn : Imm12) (s : State),
    decodeWord (0x2#4 ++ nnn) = .ok (.call nnn) ∧
    (s.sp.val = 16 → exec (.call nnn) s = .next { s with status := .halted (.stackOverflow (s.pc - 2)) }) ∧
    (s.sp.val < 16 →
      ∃ t, exec (.call nnn) s = .next t ∧ t.pc.toNat = nnn.toNat ∧ t.sp.val = s.sp.val + 1 ∧
        (∀ (j : Nat) (h : j < 16), t.stk[j] = if j = s.sp.val then s.pc else s.stk[j]) ∧
        t = { s with pc := t.pc, sp := t.sp, stk := t.stk })

/-- 00EE (R103). Which entry is read, and that it keeps its bits, are the spec's own decision D17, the recorded address D35, that a fault
has no partial effect D6 (log entries 8 and 9). -/
def Obligations.ReturnPopsTheStack : Prop :=
  ∀ s : State,
    decodeWord 0x00EE = .ok .ret ∧
    (s.sp.val = 0 → exec .ret s = .next { s with status := .halted (.stackUnderflow (s.pc - 2)) }) ∧
    (0 < s.sp.val →
      ∃ t, exec .ret s = .next t ∧ t.sp.val + 1 = s.sp.val ∧ (∀ h : t.sp.val < 16, t.pc = s.stk[t.sp.val]) ∧
        t = { s with pc := t.pc, sp := t.sp })

/-- 3XNN and 4XNN (R104, R105). -/
def Obligations.ImmediateSkipsCompareTheRegister : Prop :=
  ∀ (x : Reg) (nn : Byte) (s : State),
    decodeWord (0x3#4 ++ x ++ nn) = .ok (.seImm x nn) ∧ decodeWord (0x4#4 ++ x ++ nn) = .ok (.sneImm x nn) ∧
    exec (.seImm x nn) s = .next { s with pc := if s.reg x = nn then s.pc + 2 else s.pc } ∧
    exec (.sneImm x nn) s = .next { s with pc := if s.reg x = nn then s.pc else s.pc + 2 }

/-- 5XY0 and 9XY0 (R106, R107). -/
def Obligations.RegisterSkipsCompareTwoRegisters : Prop :=
  ∀ (x y : Reg) (s : State),
    decodeWord (0x5#4 ++ x ++ y ++ 0x0#4) = .ok (.seReg x y) ∧ decodeWord (0x9#4 ++ x ++ y ++ 0x0#4) = .ok (.sneReg x y) ∧
    (∀ n : Nibble, n ≠ 0 → ∀ i, decodeWord (0x5#4 ++ x ++ y ++ n) ≠ .ok i ∧ decodeWord (0x9#4 ++ x ++ y ++ n) ≠ .ok i) ∧
    exec (.seReg x y) s = .next { s with pc := if s.reg x = s.reg y then s.pc + 2 else s.pc } ∧
    exec (.sneReg x y) s = .next { s with pc := if s.reg x = s.reg y then s.pc else s.pc + 2 }

/-! ## Register load and arithmetic -/

/-- 6XNN and 8XY0 (R112, R114). -/
def Obligations.LoadsWriteTheRegister : Prop :=
  ∀ (x y : Reg) (nn : Byte) (s : State),
    decodeWord (0x6#4 ++ x ++ nn) = .ok (.ldImm x nn) ∧ decodeWord (0x8#4 ++ x ++ y ++ 0x0#4) = .ok (.ldReg x y) ∧
    (∃ t, exec (.ldImm x nn) s = .next t ∧ (∀ r, t.reg r = if r = x then nn else s.reg r) ∧ t = { s with x := t.x }) ∧
    (∃ t, exec (.ldReg x y) s = .next t ∧ (∀ r, t.reg r = if r = x then s.reg y else s.reg r) ∧ t = { s with x := t.x })

/-- 7XNN: no flag is written, unless register 15 is the destination. The spec takes all of R113 from general knowledge (G6, log entry 11). -/
def Obligations.AddImmediateWrapsWithoutFlag : Prop :=
  ∀ (x : Reg) (nn : Byte) (s : State),
    decodeWord (0x7#4 ++ x ++ nn) = .ok (.addImm x nn) ∧
    ∃ t, exec (.addImm x nn) s = .next t ∧ (t.reg x).toNat = ((s.reg x).toNat + nn.toNat) % 256 ∧
      (∀ r, r ≠ x → t.reg r = s.reg r) ∧ t = { s with x := t.x }

/-- 8XY1, 8XY2, 8XY3: bit by bit, no flag (R115, R116, R117). -/
def Obligations.LogicIsBitwiseWithoutFlag : Prop :=
  ∀ (x y : Reg) (s : State),
    decodeWord (0x8#4 ++ x ++ y ++ 0x1#4) = .ok (.orReg x y) ∧ decodeWord (0x8#4 ++ x ++ y ++ 0x2#4) = .ok (.andReg x y) ∧
    decodeWord (0x8#4 ++ x ++ y ++ 0x3#4) = .ok (.xorReg x y) ∧
    (∃ t, exec (.orReg x y) s = .next t ∧
      (∀ k, (t.reg x).getLsbD k = ((s.reg x).getLsbD k || (s.reg y).getLsbD k)) ∧
      (∀ r, r ≠ x → t.reg r = s.reg r) ∧ t = { s with x := t.x }) ∧
    (∃ t, exec (.andReg x y) s = .next t ∧
      (∀ k, (t.reg x).getLsbD k = ((s.reg x).getLsbD k && (s.reg y).getLsbD k)) ∧
      (∀ r, r ≠ x → t.reg r = s.reg r) ∧ t = { s with x := t.x }) ∧
    (∃ t, exec (.xorReg x y) s = .next t ∧
      (∀ k, (t.reg x).getLsbD k = ((s.reg x).getLsbD k ^^ (s.reg y).getLsbD k)) ∧
      (∀ r, r ≠ x → t.reg r = s.reg r) ∧ t = { s with x := t.x })

/-- 8XY4 (R118). -/
def Obligations.AddSetsTheCarry : Prop :=
  ∀ (x y : Reg) (s : State),
    decodeWord (0x8#4 ++ x ++ y ++ 0x4#4) = .ok (.addReg x y) ∧
    ∃ t, exec (.addReg x y) s = .next t ∧
      ResultAndFlag s t x (BitVec.ofNat 8 (((s.reg x).toNat + (s.reg y).toNat) % 256)) (255 < (s.reg x).toNat + (s.reg y).toNat)

/-- 8XY5 and 8XY7 (R119, R121). -/
def Obligations.SubtractionsSetNoBorrow : Prop :=
  ∀ (x y : Reg) (s : State),
    decodeWord (0x8#4 ++ x ++ y ++ 0x5#4) = .ok (.subReg x y) ∧ decodeWord (0x8#4 ++ x ++ y ++ 0x7#4) = .ok (.subnReg x y) ∧
    (∃ t, exec (.subReg x y) s = .next t ∧
      ResultAndFlag s t x (BitVec.ofNat 8 ((256 + (s.reg x).toNat - (s.reg y).toNat) % 256)) ((s.reg y).toNat ≤ (s.reg x).toNat)) ∧
    (∃ t, exec (.subnReg x y) s = .next t ∧
      ResultAndFlag s t x (BitVec.ofNat 8 ((256 + (s.reg y).toNat - (s.reg x).toNat) % 256)) ((s.reg x).toNat ≤ (s.reg y).toNat))

/-- 8XY6 and 8XYE, for every value of the unused field Y (R120, R122). That 8XYE shifts `x[X]` alone is the spec's own decision D8 (log
entry 9). -/
def Obligations.ShiftsSetTheDroppedBit : Prop :=
  ∀ (x y : Reg) (s : State),
    decodeWord (0x8#4 ++ x ++ y ++ 0x6#4) = .ok (.shr x y) ∧ decodeWord (0x8#4 ++ x ++ y ++ 0xE#4) = .ok (.shl x y) ∧
    (∃ t, exec (.shr x y) s = .next t ∧
      ResultAndFlag s t x (BitVec.ofNat 8 ((s.reg x).toNat / 2)) ((s.reg x).toNat % 2 = 1)) ∧
    (∃ t, exec (.shl x y) s = .next t ∧
      ResultAndFlag s t x (BitVec.ofNat 8 (2 * (s.reg x).toNat % 256)) (128 ≤ (s.reg x).toNat))

/-- With register 15 as the destination of 8XY4, 8XY5, 8XY6, 8XY7 or 8XYE it ends holding the flag under flag_last and the result
under result_last (R111; the spec's decision D7 leaves VF_ORDER open, log entry 7: both values are stated). -/
def Obligations.FlagRegisterAsDestinationFollowsVfOrder : Prop :=
  ∀ (y : Reg) (s : State),
    let a := (s.reg 15).toNat
    let b := (s.reg y).toNat
    let ends (i : Instr) (result flag : Nat) : Prop :=
      ∃ t, exec i s = .next t ∧ (∀ r, r ≠ 15 → t.reg r = s.reg r) ∧
        (s.cfg.vfOrder = .flagLast → (t.reg 15).toNat = flag) ∧ (s.cfg.vfOrder = .resultLast → (t.reg 15).toNat = result)
    ends (.addReg 15 y) ((a + b) % 256) ((a + b) / 256) ∧
    ends (.subReg 15 y) ((256 + a - b) % 256) (if b ≤ a then 1 else 0) ∧
    ends (.shr 15 y) (a / 2) (a % 2) ∧
    ends (.subnReg 15 y) ((256 + b - a) % 256) (if a ≤ b then 1 else 0) ∧
    ends (.shl 15 y) (2 * a % 256) (a / 128)

/-! ## Index register and indexed jump -/

/-- ANNN (R125). -/
def Obligations.LoadIndexSetsIdx : Prop :=
  ∀ (nnn : Imm12) (s : State),
    decodeWord (0xA#4 ++ nnn) = .ok (.ldI nnn) ∧
    ∃ t, exec (.ldI nnn) s = .next t ∧ t.idx.toNat = nnn.toNat ∧ t = { s with idx := t.idx }

/-- FX1E: the sum wraps at 4096 (R126); that it writes no flag is the spec's own decision D32 (log entry 9). -/
def Obligations.AddToIndexWrapsAtTwelveBits : Prop :=
  ∀ (x : Reg) (s : State),
    decodeWord (0xF#4 ++ x ++ 0x1E#8) = .ok (.addI x) ∧
    ∃ t, exec (.addI x) s = .next t ∧ t.idx.toNat = (s.idx.toNat + (s.reg x).toNat) % 4096 ∧ t = { s with idx := t.idx }

/-- BNNN (R127). The recorded target is the spec's own decision D35, that a fault has no partial effect D6 (log entry 9). -/
def Obligations.IndexedJumpAddsRegisterZero : Prop :=
  ∀ (nnn : Imm12) (s : State),
    decodeWord (0xB#4 ++ nnn) = .ok (.jpV0 nnn) ∧
    (4095 < nnn.toNat + (s.reg 0).toNat →
      exec (.jpV0 nnn) s = .next { s with status := .halted (.addressOutOfRange (nnn.toNat + (s.reg 0).toNat)) }) ∧
    (nnn.toNat + (s.reg 0).toNat ≤ 4095 →
      ∃ t, exec (.jpV0 nnn) s = .next t ∧ t.pc.toNat = nnn.toNat + (s.reg 0).toNat ∧ t = { s with pc := t.pc })

/-! ## Random -/

/-- CXNN: the register takes a free byte masked by NN, and the next draw is another one. The draw is the free value of log entry 4; the
statement holds whatever it is (R130, R131). -/
def Obligations.RandomIsAMaskedFreeByte : Prop :=
  ∀ (x : Reg) (nn : Byte) (s : State),
    decodeWord (0xC#4 ++ x ++ nn) = .ok (.rnd x nn) ∧
    ∃ t, exec (.rnd x nn) s = .next t ∧ t.reg x = Config.draw8 s.draws &&& nn ∧ (t.reg x).toNat ≤ nn.toNat ∧
      (∀ r, r ≠ x → t.reg r = s.reg r) ∧ t = { s with x := t.x, draws := s.draws + 1 }

/-! ## Display -/

/-- 00E0 (R133). -/
def Obligations.ClearScreenTurnsEveryCellOff : Prop :=
  ∀ s : State,
    decodeWord 0x00E0 = .ok .cls ∧
    ∃ t, exec .cls s = .next t ∧ (∀ y x, Screen.get t.fb y x = false) ∧ t = { s with fb := t.fb }

/-- DXYN: cell by cell, each covered cell is inverted and no other; the flag says whether a covered cell was on; with N at least 1 and
the last sprite byte above 4095 nothing happens but the fault (R134 to R137). That a fault has no partial effect is the spec's own
decision D6, that the coordinates are read before the flag is cleared D9, that N = 0 clears it D37, the recorded address D35 (log entry 9). -/
def Obligations.DrawXorsTheCoveredCells : Prop :=
  ∀ (x y : Reg) (n : Nibble) (s : State),
    decodeWord (0xD#4 ++ x ++ y ++ n) = .ok (.drw x y n) ∧
    (1 ≤ n.toNat → 4095 < s.idx.toNat + n.toNat - 1 →
      exec (.drw x y n) s = .next { s with status := .halted (.addressOutOfRange (s.idx.toNat + n.toNat - 1)) }) ∧
    (n.toNat = 0 ∨ s.idx.toNat + n.toNat - 1 ≤ 4095 →
      ∃ t, exec (.drw x y n) s = .next t ∧
        (∀ v u, Screen.get t.fb v u = true ↔ ¬(Screen.get s.fb v u = true ↔ s.Covers (s.reg x) (s.reg y) n.toNat v u)) ∧
        ((∃ v u, s.Covers (s.reg x) (s.reg y) n.toNat v u ∧ Screen.get s.fb v u = true) → t.reg 15 = 1) ∧
        ((∀ v u, s.Covers (s.reg x) (s.reg y) n.toNat v u → Screen.get s.fb v u = false) → t.reg 15 = 0) ∧
        (∀ r, r ≠ 15 → t.reg r = s.reg r) ∧ t = { s with fb := t.fb, x := t.x })

/-- Drawing the same sprite at the same place twice restores the framebuffer; if the covered cells were off, and there is one, the
first draw leaves flag 0 and the second flag 1 (R136). The coordinates are in registers other than the flag: with X or Y = 15 the second
draw takes the flag of the first as a coordinate, which `DrawXorsTheCoveredCells` covers draw by draw. -/
def Obligations.DrawingTwiceRestoresTheScreen : Prop :=
  ∀ (x y : Reg) (n : Nibble) (s : State),
    x ≠ 15 → y ≠ 15 → (n.toNat = 0 ∨ s.idx.toNat + n.toNat - 1 ≤ 4095) →
    ∃ t u, exec (.drw x y n) s = .next t ∧ exec (.drw x y n) t = .next u ∧ u.fb = s.fb ∧
      ((∃ v w, s.Covers (s.reg x) (s.reg y) n.toNat v w) →
        (∀ v w, s.Covers (s.reg x) (s.reg y) n.toNat v w → Screen.get s.fb v w = false) → t.reg 15 = 0 ∧ u.reg 15 = 1)

/-! ## Keys -/

/-- EX9E and EXA1: an index above 15 is the fault, not reduced; else a skip by the latch (R140, R141, R142). That the fault is a
kind of its own and the index not reduced is the spec's own decision D11, the recorded index D35, that a fault has no partial effect D6
(log entry 9). -/
def Obligations.KeyTestsSkipByTheLatch : Prop :=
  ∀ (x : Reg) (s : State),
    decodeWord (0xE#4 ++ x ++ 0x9E#8) = .ok (.skp x) ∧ decodeWord (0xE#4 ++ x ++ 0xA1#8) = .ok (.sknp x) ∧
    (15 < (s.reg x).toNat →
      exec (.skp x) s = .next { s with status := .halted (.keyIndexOutOfRange (s.reg x)) } ∧
      exec (.sknp x) s = .next { s with status := .halted (.keyIndexOutOfRange (s.reg x)) }) ∧
    (∀ h : (s.reg x).toNat < 16,
      exec (.skp x) s = .next { s with pc := if s.key[(s.reg x).toNat] = true then s.pc + 2 else s.pc } ∧
      exec (.sknp x) s = .next { s with pc := if s.key[(s.reg x).toNat] = true then s.pc else s.pc + 2 })

/-- KEY with a valid index: the latch follows; only a press of a released key resumes a wait, and then the index goes to the waiting
register and `pc` past the FX0A (R144, R145, R146). What counts as a press is the spec's own decision D23 and D24 (log entry 9). -/
def Obligations.KeyEventLatchesAndResumes : Prop :=
  ∀ (s : State) (k : Key) (pressed : Bool), s.mode = .running →
    ∃ t, handle (.key (k.toNat : Int) pressed) s = .next t ∧
      (∀ j : Key, t.keyDown j = if j = k then pressed else s.keyDown j) ∧
      (∀ r, s.status = .waitingForKey r → pressed = true → s.keyDown k = false →
        (t.reg r).toNat = k.toNat ∧ (∀ q, q ≠ r → t.reg q = s.reg q) ∧ t.pc = s.pc + 2 ∧ t.status = .executing ∧
          t = { s with key := t.key, x := t.x, pc := t.pc, status := t.status }) ∧
      ((∀ r, s.status ≠ .waitingForKey r) ∨ pressed = false ∨ s.keyDown k = true → t = { s with key := t.key })

/-- KEY with an index outside 0..15 is reported and changes nothing else (R143, R176). What the report holds is the spec's own decision D31
(log entry 9). -/
def Obligations.InvalidKeyIndexIsReportedOnly : Prop :=
  ∀ (s : State) (k : Int) (pressed : Bool), s.mode = .running → k < 0 ∨ 15 < k →
    handle (.key k pressed) s = .next { s with out := s.out ++ [.diagInvalidKeyIndex k] }

/-- FX0A goes back to itself and waits; CYCLE then changes nothing; the press of a released key k ends with `x[X] = k` and `pc = A + 2`, and
the latch of k set: the net effect R151 gives. -/
def Obligations.KeyWaitEndsWithTheKeyInTheRegister : Prop :=
  ∀ (s : State) (x : Reg) (k : Key), s.mode = .running → s.status = .executing → s.keyDown k = false →
    ∃ u t, exec (.ldVxK x) s = .next u ∧ handle .cycle u = .next u ∧ handle (.key (k.toNat : Int) true) u = .next t ∧
      t.pc = s.pc ∧ t.status = .executing ∧ (∀ r, (t.reg r).toNat = if r = x then k.toNat else (s.reg r).toNat) ∧
      (∀ j : Key, t.keyDown j = (s.keyDown j || j == k)) ∧ t = { s with x := t.x, key := t.key }

/-! ## Timers and memory -/

/-- FX07 and FX15 (R150, R152). -/
def Obligations.DelayTimerIsReadAndSet : Prop :=
  ∀ (x : Reg) (s : State),
    decodeWord (0xF#4 ++ x ++ 0x07#8) = .ok (.ldVxDt x) ∧ decodeWord (0xF#4 ++ x ++ 0x15#8) = .ok (.ldDtVx x) ∧
    (∃ t, exec (.ldVxDt x) s = .next t ∧ (∀ r, t.reg r = if r = x then s.dt else s.reg r) ∧ t = { s with x := t.x }) ∧
    exec (.ldDtVx x) s = .next { s with dt := s.reg x }

/-- FX0A: `pc` back to the instruction's own address, the wait in `status`, nothing else (R151). -/
def Obligations.KeyWaitSuspendsAtItself : Prop :=
  ∀ (x : Reg) (s : State),
    decodeWord (0xF#4 ++ x ++ 0x0A#8) = .ok (.ldVxK x) ∧
    exec (.ldVxK x) s = .next { s with pc := s.pc - 2, status := .waitingForKey x }

/-- FX18, with its edge (R153; the cases are the spec's own decision D19, log entry 9). -/
def Obligations.SoundTimerIsSetWithItsEdge : Prop :=
  ∀ (x : Reg) (s : State),
    decodeWord (0xF#4 ++ x ++ 0x18#8) = .ok (.ldStVx x) ∧
    ∃ t, exec (.ldStVx x) s = .next t ∧ t.st = s.reg x ∧
      (s.st.toNat = 0 → 0 < (s.reg x).toNat → t.out = s.out ++ [.soundOn]) ∧
      (0 < s.st.toNat → (s.reg x).toNat = 0 → t.out = s.out ++ [.soundOff]) ∧
      ((s.st.toNat = 0 ↔ (s.reg x).toNat = 0) → t.out = s.out) ∧
      t = { s with st := t.st, out := t.out }

/-- FX29 (R155; that no bit of the register is masked is the spec's own decision D28, log entry 9). -/
def Obligations.FontAddressIsFiveTimesTheRegister : Prop :=
  ∀ (x : Reg) (s : State),
    decodeWord (0xF#4 ++ x ++ 0x29#8) = .ok (.ldF x) ∧
    ∃ t, exec (.ldF x) s = .next t ∧ t.idx.toNat = 5 * (s.reg x).toNat ∧ t = { s with idx := t.idx }

/-- FX33 (R156). That a fault has no partial effect is the spec's own decision D6 (R57), the recorded address D35 (log entry 9). -/
def Obligations.BcdStoresThreeDigits : Prop :=
  ∀ (x : Reg) (s : State),
    decodeWord (0xF#4 ++ x ++ 0x33#8) = .ok (.ldB x) ∧
    (4095 < s.idx.toNat + 2 → exec (.ldB x) s = .next { s with status := .halted (.addressOutOfRange (s.idx.toNat + 2)) }) ∧
    (s.idx.toNat + 2 ≤ 4095 →
      ∃ t, exec (.ldB x) s = .next t ∧
        (t.readByte s.idx.toNat).toNat = (s.reg x).toNat / 100 ∧
        (t.readByte (s.idx.toNat + 1)).toNat = (s.reg x).toNat / 10 % 10 ∧
        (t.readByte (s.idx.toNat + 2)).toNat = (s.reg x).toNat % 10 ∧
        (∀ a, a < s.idx.toNat ∨ s.idx.toNat + 2 < a → t.readByte a = s.readByte a) ∧
        t = { s with mem := t.mem })

/-- FX55 (R157). That a fault has no partial effect is the spec's own decision D6 (R57), that `idx` stays D27 (R159), the recorded address
D35 (log entry 9). -/
def Obligations.StoreCopiesRegistersToMemory : Prop :=
  ∀ (x : Reg) (s : State),
    decodeWord (0xF#4 ++ x ++ 0x55#8) = .ok (.storeRegs x) ∧
    (4095 < s.idx.toNat + x.toNat →
      exec (.storeRegs x) s = .next { s with status := .halted (.addressOutOfRange (s.idx.toNat + x.toNat)) }) ∧
    (s.idx.toNat + x.toNat ≤ 4095 →
      ∃ t, exec (.storeRegs x) s = .next t ∧
        (∀ r : Reg, r.toNat ≤ x.toNat → t.readByte (s.idx.toNat + r.toNat) = s.reg r) ∧
        (∀ a, a < s.idx.toNat ∨ s.idx.toNat + x.toNat < a → t.readByte a = s.readByte a) ∧
        t = { s with mem := t.mem })

/-- FX65 (R158). That a fault has no partial effect is the spec's own decision D6 (R57), that `idx` stays D27 (R159), the recorded address
D35 (log entry 9). -/
def Obligations.LoadCopiesMemoryToRegisters : Prop :=
  ∀ (x : Reg) (s : State),
    decodeWord (0xF#4 ++ x ++ 0x65#8) = .ok (.loadRegs x) ∧
    (4095 < s.idx.toNat + x.toNat →
      exec (.loadRegs x) s = .next { s with status := .halted (.addressOutOfRange (s.idx.toNat + x.toNat)) }) ∧
    (s.idx.toNat + x.toNat ≤ 4095 →
      ∃ t, exec (.loadRegs x) s = .next t ∧
        (∀ r : Reg, t.reg r = if r.toNat ≤ x.toNat then s.readByte (s.idx.toNat + r.toNat) else s.reg r) ∧
        t = { s with x := t.x })

/-- A store is seen by the next fetch: after FX55 at `idx = pc` with X at least 1 the next CYCLE runs the instruction whose word is
`x[0]` and `x[1]` (R62). -/
def Obligations.StoredCodeIsFetchedNext : Prop :=
  ∀ (x : Reg) (s : State) (i : Instr),
    s.mode = .running → s.status = .executing → s.idx = s.pc → 1 ≤ x.toNat → s.idx.toNat + x.toNat ≤ 4095 →
    s.pc.toNat < s.progEnd → decodeWord (BitVec.ofNat 16 (256 * (s.reg 0).toNat + (s.reg 1).toNat)) = .ok i →
    ∃ t, exec (.storeRegs x) s = .next t ∧ handle .cycle t = exec i { t with pc := s.pc + 2 }

/-! ## TICK, LOAD, RESET_REQ, POWER_ON -/

/-- TICK: in Running it acts in every `status`, in Launcher it does nothing (R181; both are the spec's own decision D20, log entry 9). -/
def Obligations.TickCountsBothTimersDown : Prop :=
  ∀ s : State,
    (s.mode = .launcher → handle .tick s = .next s) ∧
    (s.mode = .running →
      ∃ t, handle .tick s = .next t ∧ t.dt.toNat = s.dt.toNat - 1 ∧ t.st.toNat = s.st.toNat - 1 ∧
        t.out = s.out ++ (if s.st.toNat = 1 then [.soundOff] else []) ∧ t = { s with dt := t.dt, st := t.st, out := t.out })

/-- After n TICKs each timer is n lower, never below zero, whatever the `status` (R181; that TICK counts in every `status` is the spec's own
decision D20, log entry 9); nothing else but the trace and the event list has changed. The event list is the model's own (log entry 1). -/
def Obligations.ManyTicksCountDownToZero : Prop :=
  ∀ (n : Nat) (s : State) (es : List Event), s.mode = .running → s.events = List.replicate n .tick ++ es →
    ∃ t, Sys2Proof.core.run n s = .next t ∧ t.dt.toNat = s.dt.toNat - n ∧ t.st.toNat = s.st.toNat - n ∧
      t = { s with dt := t.dt, st := t.st, out := t.out, events := es }

/-- In Launcher CYCLE, TICK and KEY are without effect (R201). Of TICK that is the spec's own decision D20, of KEY D13 (log entries 8
and 9). -/
def Obligations.LauncherIsIdle : Prop :=
  ∀ s : State, s.mode = .launcher →
    handle .cycle s = .next s ∧ handle .tick s = .next s ∧ ∀ (k : Int) (pressed : Bool), handle (.key k pressed) s = .next s

/-- What POWER_ON leaves, for every FONT (R200); `State.reset` is POWER_ON with the recommended parameters (log
entries 6 and 7). The zeros are the spec's own decisions D13 to D18 (log entry 8). -/
def Obligations.PowerOnLeavesTheCoreIdle : Prop :=
  ∀ cfg : Config,
    let s := State.powerOn cfg
    s.mode = .launcher ∧ s.status = .executing ∧ s.progEnd = 0x200 ∧ (∀ r, s.reg r = 0) ∧ s.idx = 0 ∧ s.pc = 0x200 ∧ s.sp = 0 ∧
    (∀ (j : Nat) (h : j < 16), s.stk[j] = 0) ∧ s.dt = 0 ∧ s.st = 0 ∧ (∀ y x, Screen.get s.fb y x = false) ∧
    (∀ k, s.keyDown k = false) ∧ s.out = [] ∧ ∀ (a : Nat) (h : a < 80), s.readByte a = cfg.font[a]

/-- LOAD: a no-op in Running; accepted in Launcher, it leaves the image at 0x200, the font cells and the latch kept, everything else as R204
says. Nothing is claimed of the other cells (R205). Acceptance, `idx`, the stack's bits, the latch and the sound edge are the spec's own
decisions D21, D15, D17, D13 and D19 (log entries 8 and 9). -/
def Obligations.LoadStartsARun : Prop :=
  ∀ (s : State) (image : List Byte),
    (s.mode = .running → handle (.load image) s = .next s) ∧
    (s.mode = .launcher → image.length ≤ 3584 →
      ∃ t, handle (.load image) s = .next t ∧
        t.mode = .running ∧ t.status = .executing ∧ t.progEnd = 0x200 + image.length ∧ (∀ r, t.reg r = 0) ∧ t.idx = 0 ∧
        t.pc = 0x200 ∧ t.sp = 0 ∧ (∀ (j : Nat) (h : j < 16), t.stk[j] = 0) ∧ t.dt = 0 ∧ t.st = 0 ∧
        (∀ y x, Screen.get t.fb y x = false) ∧ t.key = s.key ∧ t.out = s.out ++ (if 0 < s.st.toNat then [.soundOff] else []) ∧
        (∀ (a : Nat) (h : a < image.length), t.readByte (0x200 + a) = image[a]) ∧ (∀ a, a < 80 → t.readByte a = s.readByte a))

/-- In Launcher an image of more than 3584 bytes is reported and changes nothing else (R203). -/
def Obligations.OversizeLoadIsReportedOnly : Prop :=
  ∀ (s : State) (image : List Byte), s.mode = .launcher → 3584 < image.length →
    handle (.load image) s = .next { s with out := s.out ++ [.loadErrorOversize] }

/-- RESET_REQ: a no-op in Launcher; in Running, in every `status`, back to Launcher (R207, R208, R209). What it clears, and that it keeps
the latch, are the spec's own decisions D22, D14, D18, D13 and D19 (log entries 8 and 9). -/
def Obligations.ResetRequestReturnsToLauncher : Prop :=
  ∀ s : State,
    (s.mode = .launcher → handle .resetReq s = .next s) ∧
    (s.mode = .running →
      ∃ t, handle .resetReq s = .next t ∧
        t.mode = .launcher ∧ t.status = .executing ∧ t.progEnd = 0x200 ∧ (∀ r, t.reg r = 0) ∧ t.idx = 0 ∧ t.pc = 0x200 ∧ t.sp = 0 ∧
        (∀ (j : Nat) (h : j < 16), t.stk[j] = 0) ∧ t.dt = 0 ∧ t.st = 0 ∧ (∀ y x, Screen.get t.fb y x = false) ∧ t.key = s.key ∧
        t.out = s.out ++ (if 0 < s.st.toNat then [.soundOff] else []) ∧ ∀ a, a < 80 → t.readByte a = s.readByte a)

/-! ## The whole machine -/

/-- An instruction raises the fault R171 lists for it exactly when R171 says, and then `status` is all that changes (R172); else it
completes, and leaves `status` as it was, except FX0A, which waits (R97). Precision is the spec's own decision D6, what a halt
records D35 (log entry 9). -/
def Obligations.FaultsArePreciseAndAsListed : Prop :=
  ∀ (i : Instr) (s : State),
    (∀ h, faultOf i s = some h → exec i s = .next { s with status := .halted h }) ∧
    (faultOf i s = none → ∃ t, exec i s = .next t ∧
      ((∀ x, i ≠ .ldVxK x) → t.status = s.status) ∧ ∀ x, i = .ldVxK x → t.status = .waitingForKey x)

/-- Which element an instruction may change: the "written by" column of R25, for the instructions. The registers, `pc` and `status` are in
`RegistersChangeOnlyAsNamed`, `PcAdvancesByTwoOrFour` and `FaultsArePreciseAndAsListed`. -/
def Obligations.ElementsChangeOnlyByTheirWriters : Prop :=
  ∀ (i : Instr) (s t : State), exec i s = .next t →
    (t.idx ≠ s.idx → (∃ nnn, i = .ldI nnn) ∨ (∃ x, i = .addI x) ∨ ∃ x, i = .ldF x) ∧
    (t.stk ≠ s.stk → ∃ nnn, i = .call nnn) ∧
    (t.sp ≠ s.sp → (∃ nnn, i = .call nnn) ∨ i = .ret) ∧
    (t.dt ≠ s.dt → ∃ x, i = .ldDtVx x) ∧
    (t.st ≠ s.st ∨ t.out ≠ s.out → ∃ x, i = .ldStVx x) ∧
    (t.fb ≠ s.fb → i = .cls ∨ ∃ x y n, i = .drw x y n) ∧
    ((∃ a, t.readByte a ≠ s.readByte a) → (∃ x, i = .ldB x) ∨ ∃ x, i = .storeRegs x) ∧
    t.key = s.key ∧ t.mode = s.mode ∧ t.progEnd = s.progEnd

/-- A register changes only by an instruction that names it as its destination or reaches it in a bulk load, and register 15 besides by
the six instructions that write the flag (R22). -/
def Obligations.RegistersChangeOnlyAsNamed : Prop :=
  ∀ (i : Instr) (s t : State), exec i s = .next t →
    ∀ r, t.reg r ≠ s.reg r → namesDestination i r = true ∨ (r = 15 ∧ writesFlag i = true)

/-- Every instruction that completes and is no taken control transfer and no key-wait leaves `pc` at A + 2, or at A + 4 if it is a
skip (R24). -/
def Obligations.PcAdvancesByTwoOrFour : Prop :=
  ∀ (i : Instr) (s : State), faultOf i s = none → ¬isJump i → (∀ x, i ≠ .ldVxK x) →
    ∃ t, exec i s = .next t ∧ (t.pc = s.pc ∨ (isSkip i ∧ t.pc = s.pc + 2))

/-- The invariants of R40, which the spec derives from its rules, are kept by every event. A waiting `pc` is in addition at most 4094. -/
def Obligations.InvariantsAreKeptByEveryStep : Prop :=
  ∀ s t : State, s.Inv → step s = .next t → t.Inv

/-- SoundOn and SoundOff keep alternating, in step with `st > 0`, whatever happens (R182). That LOAD and RESET_REQ put out the edge of
clearing `st`, on which the alternation depends, is the spec's own decision D19 (log entry 9). -/
def Obligations.SoundEdgesAlternateForever : Prop :=
  ∀ s t : State, s.SoundInv → step s = .next t → t.SoundInv

/-- The memory keeps its canonical form: no cell outside 0..4095, addresses rising. -/
def Obligations.MemoryStaysCanonical : Prop :=
  ∀ s t : State, Memory.wf s.cfg.font s.mem → step s = .next t → Memory.wf t.cfg.font t.mem

/-- The three invariants hold after POWER_ON, for every value of the open parameters. -/
def Obligations.InvariantsHoldAfterPowerOn : Prop :=
  ∀ cfg : Config, (State.powerOn cfg).Inv ∧ (State.powerOn cfg).SoundInv ∧ Memory.wf cfg.font (State.powerOn cfg).mem

/-- Once halted, the registers, `idx`, `pc`, the memory, the framebuffer and the stack are frozen until RESET_REQ; CYCLE, TICK, KEY and
LOAD do not end the halt (R173, R190; the spec's own decisions D29 and D30, log entry 9). -/
def Obligations.HaltedIsFrozenUntilReset : Prop :=
  ∀ (e : Event) (s t : State) (h : Halt), s.mode = .running → s.status = .halted h → e ≠ .resetReq → handle e s = .next t →
    t.status = .halted h ∧ t.mode = .running ∧
    t = { s with dt := t.dt, st := t.st, key := t.key, out := t.out }

/-- Waiting is left only by a KEY press or RESET_REQ: every other event leaves the wait, the registers, `idx`, `pc`, the memory, the
framebuffer and the stack as they are (R188, R217). -/
def Obligations.WaitingEndsOnlyByAPressOrReset : Prop :=
  ∀ (e : Event) (s t : State) (r : Reg), s.mode = .running → s.status = .waitingForKey r → handle e s = .next t →
    e ≠ .resetReq → (∀ k, e ≠ .key k true) →
    t.status = .waitingForKey r ∧ t = { s with dt := t.dt, st := t.st, key := t.key, out := t.out }
end

