-- ==== Sys2Proof/Laws/Decode.lean ====
section
/-! SUPPORT. The fields of a word laid out in a format are the fields it was laid out from, and a word is the layout of its fields
(spec/30_encoding.md R71, R73). -/

namespace Sys2Proof

/-! ## The formats as numbers -/

theorem toNat_append_eq {m n : Nat} (a : BitVec m) (b : BitVec n) : (a ++ b).toNat = 2 ^ n * a.toNat + b.toNat := by
  rw [BitVec.toNat_append, Nat.shiftLeft_eq, Nat.mul_comm, Nat.two_pow_add_eq_or_of_lt b.isLt]

theorem toNat_formatNNN (op : Nibble) (nnn : Imm12) : (formatNNN op nnn).toNat = 0x1000 * op.toNat + nnn.toNat :=
  toNat_append_eq op nnn

theorem toNat_formatXNN (op : Nibble) (x : Reg) (nn : Byte) :
    (formatXNN op x nn).toNat = 0x1000 * op.toNat + 0x100 * x.toNat + nn.toNat := by
  have h : (formatXNN op x nn).toNat = 2 ^ 8 * (2 ^ 4 * op.toNat + x.toNat) + nn.toNat := by
    rw [← toNat_append_eq]
    exact toNat_append_eq (op ++ x) nn
  omega

theorem toNat_formatXYN (op : Nibble) (x y : Reg) (n : Nibble) :
    (formatXYN op x y n).toNat = 0x1000 * op.toNat + 0x100 * x.toNat + 0x10 * y.toNat + n.toNat := by
  have h : (formatXYN op x y n).toNat = 2 ^ 4 * (2 ^ 4 * (2 ^ 4 * op.toNat + x.toNat) + y.toNat) + n.toNat := by
    rw [← toNat_append_eq, ← toNat_append_eq]
    exact toNat_append_eq (op ++ x ++ y) n
  omega

theorem toNat_wordOfBytes (hi lo : Byte) : (wordOfBytes hi lo).toNat = 0x100 * hi.toNat + lo.toNat :=
  toNat_append_eq hi lo

theorem toNat_opField (w : Word) : (opField w).toNat = w.toNat / 0x1000 := by
  have := w.isLt
  simp only [opField, BitVec.extractLsb'_toNat, Nat.shiftRight_eq_div_pow]
  omega

theorem toNat_xField (w : Word) : (xField w).toNat = w.toNat / 0x100 % 0x10 := by
  simp only [xField, BitVec.extractLsb'_toNat, Nat.shiftRight_eq_div_pow]

theorem toNat_yField (w : Word) : (yField w).toNat = w.toNat / 0x10 % 0x10 := by
  simp only [yField, BitVec.extractLsb'_toNat, Nat.shiftRight_eq_div_pow]

theorem toNat_nField (w : Word) : (nField w).toNat = w.toNat % 0x10 := by
  simp only [nField, BitVec.extractLsb'_toNat, Nat.shiftRight_eq_div_pow]
  omega

theorem toNat_nnField (w : Word) : (nnField w).toNat = w.toNat % 0x100 := by
  simp only [nnField, BitVec.extractLsb'_toNat, Nat.shiftRight_eq_div_pow]
  omega

theorem toNat_nnnField (w : Word) : (nnnField w).toNat = w.toNat % 0x1000 := by
  simp only [nnnField, BitVec.extractLsb'_toNat, Nat.shiftRight_eq_div_pow]
  omega

theorem toNat_highByte (w : Word) : (highByte w).toNat = w.toNat / 0x100 := by
  have := w.isLt
  simp only [highByte, BitVec.extractLsb'_toNat, Nat.shiftRight_eq_div_pow]
  omega

theorem toNat_lowByte (w : Word) : (lowByte w).toNat = w.toNat % 0x100 := by
  simp only [lowByte, BitVec.extractLsb'_toNat, Nat.shiftRight_eq_div_pow]
  omega

/-! ## The fields of a format -/

@[simp] theorem opField_formatNNN (op : Nibble) (nnn : Imm12) : opField (formatNNN op nnn) = op := by
  have := nnn.isLt
  apply BitVec.eq_of_toNat_eq
  rw [toNat_opField, toNat_formatNNN]
  omega

@[simp] theorem nnnField_formatNNN (op : Nibble) (nnn : Imm12) : nnnField (formatNNN op nnn) = nnn := by
  have := nnn.isLt
  apply BitVec.eq_of_toNat_eq
  rw [toNat_nnnField, toNat_formatNNN]
  omega

@[simp] theorem opField_formatXNN (op : Nibble) (x : Reg) (nn : Byte) : opField (formatXNN op x nn) = op := by
  have := x.isLt
  have := nn.isLt
  apply BitVec.eq_of_toNat_eq
  rw [toNat_opField, toNat_formatXNN]
  omega

@[simp] theorem xField_formatXNN (op : Nibble) (x : Reg) (nn : Byte) : xField (formatXNN op x nn) = x := by
  have := x.isLt
  have := nn.isLt
  apply BitVec.eq_of_toNat_eq
  rw [toNat_xField, toNat_formatXNN]
  omega

@[simp] theorem nnField_formatXNN (op : Nibble) (x : Reg) (nn : Byte) : nnField (formatXNN op x nn) = nn := by
  have := x.isLt
  have := nn.isLt
  apply BitVec.eq_of_toNat_eq
  rw [toNat_nnField, toNat_formatXNN]
  omega

@[simp] theorem opField_formatXYN (op : Nibble) (x y : Reg) (n : Nibble) : opField (formatXYN op x y n) = op := by
  have := x.isLt
  have := y.isLt
  have := n.isLt
  apply BitVec.eq_of_toNat_eq
  rw [toNat_opField, toNat_formatXYN]
  omega

@[simp] theorem xField_formatXYN (op : Nibble) (x y : Reg) (n : Nibble) : xField (formatXYN op x y n) = x := by
  have := x.isLt
  have := y.isLt
  have := n.isLt
  apply BitVec.eq_of_toNat_eq
  rw [toNat_xField, toNat_formatXYN]
  omega

@[simp] theorem yField_formatXYN (op : Nibble) (x y : Reg) (n : Nibble) : yField (formatXYN op x y n) = y := by
  have := x.isLt
  have := y.isLt
  have := n.isLt
  apply BitVec.eq_of_toNat_eq
  rw [toNat_yField, toNat_formatXYN]
  omega

@[simp] theorem nField_formatXYN (op : Nibble) (x y : Reg) (n : Nibble) : nField (formatXYN op x y n) = n := by
  have := x.isLt
  have := y.isLt
  have := n.isLt
  apply BitVec.eq_of_toNat_eq
  rw [toNat_nField, toNat_formatXYN]
  omega

theorem formatNNN_fields (w : Word) : formatNNN (opField w) (nnnField w) = w := by
  have := w.isLt
  apply BitVec.eq_of_toNat_eq
  rw [toNat_formatNNN, toNat_opField, toNat_nnnField]
  omega

theorem formatXNN_fields (w : Word) : formatXNN (opField w) (xField w) (nnField w) = w := by
  have := w.isLt
  apply BitVec.eq_of_toNat_eq
  rw [toNat_formatXNN, toNat_opField, toNat_xField, toNat_nnField]
  omega

theorem formatXYN_fields (w : Word) : formatXYN (opField w) (xField w) (yField w) (nField w) = w := by
  have := w.isLt
  apply BitVec.eq_of_toNat_eq
  rw [toNat_formatXYN, toNat_opField, toNat_xField, toNat_yField, toNat_nField]
  omega

/-- The two bytes of a word, high byte first, form the word again (R54). -/
@[simp] theorem wordOfBytes_split (w : Word) : wordOfBytes (highByte w) (lowByte w) = w := by
  have := w.isLt
  apply BitVec.eq_of_toNat_eq
  rw [toNat_wordOfBytes, toNat_highByte, toNat_lowByte]
  omega

/-! ## The table row of a format -/

/-- A word of format NNN is accepted by a row with mask 0xF000 and the family's nibble (R75). -/
theorem accepts_formatNNN (op : Nibble) (nnn : Imm12) : formatNNN op nnn &&& 0xF000 = formatNNN op 0 := by
  show (op ++ nnn) &&& (0xF#4 ++ 0#12) = op ++ 0#12
  rw [BitVec.and_append, BitVec.and_zero]
  congr 1
  exact BitVec.and_allOnes

/-- A word of format XNN is accepted by a row with mask 0xF000 and the family's nibble (R75). -/
theorem accepts_formatXNN (op : Nibble) (x : Reg) (nn : Byte) : formatXNN op x nn &&& 0xF000 = formatXNN op 0 0 := by
  show (op ++ x ++ nn) &&& (0xF#4 ++ 0#4 ++ 0#8) = op ++ 0#4 ++ 0#8
  rw [BitVec.and_append, BitVec.and_append, BitVec.and_zero, BitVec.and_zero]
  congr 2
  exact BitVec.and_allOnes

/-- A word of format X is accepted by a row with mask 0xF0FF, the family's nibble and the sub-opcode's byte (R75). -/
theorem accepts_formatX (op : Nibble) (x : Reg) (nn : Byte) : formatXNN op x nn &&& 0xF0FF = formatXNN op 0 nn := by
  show (op ++ x ++ nn) &&& (0xF#4 ++ 0#4 ++ 0xFF#8) = op ++ 0#4 ++ nn
  rw [BitVec.and_append, BitVec.and_append, BitVec.and_zero]
  congr 1
  · congr 1
    exact BitVec.and_allOnes
  · exact BitVec.and_allOnes

/-- A word of format XY is accepted by a row with mask 0xF00F, the family's nibble and the sub-opcode's nibble (R75). -/
theorem accepts_formatXY (op : Nibble) (x y : Reg) (n : Nibble) : formatXYN op x y n &&& 0xF00F = formatXYN op 0 0 n := by
  show (op ++ x ++ y ++ n) &&& (0xF#4 ++ 0#4 ++ 0#4 ++ 0xF#4) = op ++ 0#4 ++ 0#4 ++ n
  rw [BitVec.and_append, BitVec.and_append, BitVec.and_append, BitVec.and_zero, BitVec.and_zero]
  congr 1
  · congr 2
    exact BitVec.and_allOnes
  · exact BitVec.and_allOnes

/-- A word of format XYN is accepted by a row with mask 0xF000 and the family's nibble (R75). -/
theorem accepts_formatXYN (op : Nibble) (x y : Reg) (n : Nibble) :
    formatXYN op x y n &&& 0xF000 = formatXYN op 0 0 0 := by
  show (op ++ x ++ y ++ n) &&& (0xF#4 ++ 0#4 ++ 0#4 ++ 0#4) = op ++ 0#4 ++ 0#4 ++ 0#4
  rw [BitVec.and_append, BitVec.and_append, BitVec.and_append, BitVec.and_zero, BitVec.and_zero, BitVec.and_zero]
  congr 3
  exact BitVec.and_allOnes

end Sys2Proof
end

