-- ==== Sys2Proof/Laws/State.lean ====
section
/-! SUPPORT. What each named update of the state leaves in each field: one lemma per field per update, so that no later proof unfolds
a record update. -/

namespace Sys2Proof.Machine

variable (s : State)

/-! ## Registers -/

@[simp] theorem State.setReg_x (r : Reg) (v : Byte) : (s.setReg r v).x = s.x.set r.toNat v := rfl
@[simp] theorem State.setReg_idx (r : Reg) (v : Byte) : (s.setReg r v).idx = s.idx := rfl
@[simp] theorem State.setReg_pc (r : Reg) (v : Byte) : (s.setReg r v).pc = s.pc := rfl
@[simp] theorem State.setReg_stk (r : Reg) (v : Byte) : (s.setReg r v).stk = s.stk := rfl
@[simp] theorem State.setReg_sp (r : Reg) (v : Byte) : (s.setReg r v).sp = s.sp := rfl
@[simp] theorem State.setReg_dt (r : Reg) (v : Byte) : (s.setReg r v).dt = s.dt := rfl
@[simp] theorem State.setReg_st (r : Reg) (v : Byte) : (s.setReg r v).st = s.st := rfl
@[simp] theorem State.setReg_fb (r : Reg) (v : Byte) : (s.setReg r v).fb = s.fb := rfl
@[simp] theorem State.setReg_key (r : Reg) (v : Byte) : (s.setReg r v).key = s.key := rfl
@[simp] theorem State.setReg_status (r : Reg) (v : Byte) : (s.setReg r v).status = s.status := rfl
@[simp] theorem State.setReg_mode (r : Reg) (v : Byte) : (s.setReg r v).mode = s.mode := rfl
@[simp] theorem State.setReg_progEnd (r : Reg) (v : Byte) : (s.setReg r v).progEnd = s.progEnd := rfl
@[simp] theorem State.setReg_mem (r : Reg) (v : Byte) : (s.setReg r v).mem = s.mem := rfl
@[simp] theorem State.setReg_out (r : Reg) (v : Byte) : (s.setReg r v).out = s.out := rfl
@[simp] theorem State.setReg_cfg (r : Reg) (v : Byte) : (s.setReg r v).cfg = s.cfg := rfl
@[simp] theorem State.setReg_draws (r : Reg) (v : Byte) : (s.setReg r v).draws = s.draws := rfl
@[simp] theorem State.setReg_fillEpoch (r : Reg) (v : Byte) : (s.setReg r v).fillEpoch = s.fillEpoch := rfl
@[simp] theorem State.setReg_events (r : Reg) (v : Byte) : (s.setReg r v).events = s.events := rfl

/-! ## Memory -/

@[simp] theorem State.writeByte_mem (a : Nat) (b : Byte) : (s.writeByte a b).mem = Memory.write s.cfg.font s.mem a b := rfl
@[simp] theorem State.writeByte_x (a : Nat) (b : Byte) : (s.writeByte a b).x = s.x := rfl
@[simp] theorem State.writeByte_idx (a : Nat) (b : Byte) : (s.writeByte a b).idx = s.idx := rfl
@[simp] theorem State.writeByte_pc (a : Nat) (b : Byte) : (s.writeByte a b).pc = s.pc := rfl
@[simp] theorem State.writeByte_stk (a : Nat) (b : Byte) : (s.writeByte a b).stk = s.stk := rfl
@[simp] theorem State.writeByte_sp (a : Nat) (b : Byte) : (s.writeByte a b).sp = s.sp := rfl
@[simp] theorem State.writeByte_dt (a : Nat) (b : Byte) : (s.writeByte a b).dt = s.dt := rfl
@[simp] theorem State.writeByte_st (a : Nat) (b : Byte) : (s.writeByte a b).st = s.st := rfl
@[simp] theorem State.writeByte_fb (a : Nat) (b : Byte) : (s.writeByte a b).fb = s.fb := rfl
@[simp] theorem State.writeByte_key (a : Nat) (b : Byte) : (s.writeByte a b).key = s.key := rfl
@[simp] theorem State.writeByte_status (a : Nat) (b : Byte) : (s.writeByte a b).status = s.status := rfl
@[simp] theorem State.writeByte_mode (a : Nat) (b : Byte) : (s.writeByte a b).mode = s.mode := rfl
@[simp] theorem State.writeByte_progEnd (a : Nat) (b : Byte) : (s.writeByte a b).progEnd = s.progEnd := rfl
@[simp] theorem State.writeByte_out (a : Nat) (b : Byte) : (s.writeByte a b).out = s.out := rfl
@[simp] theorem State.writeByte_cfg (a : Nat) (b : Byte) : (s.writeByte a b).cfg = s.cfg := rfl
@[simp] theorem State.writeByte_draws (a : Nat) (b : Byte) : (s.writeByte a b).draws = s.draws := rfl
@[simp] theorem State.writeByte_fillEpoch (a : Nat) (b : Byte) : (s.writeByte a b).fillEpoch = s.fillEpoch := rfl
@[simp] theorem State.writeByte_events (a : Nat) (b : Byte) : (s.writeByte a b).events = s.events := rfl

/-! ## Key latch -/

@[simp] theorem State.setKey_key (k : Key) (p : Bool) : (s.setKey k p).key = s.key.set k.toNat p := rfl
@[simp] theorem State.setKey_x (k : Key) (p : Bool) : (s.setKey k p).x = s.x := rfl
@[simp] theorem State.setKey_idx (k : Key) (p : Bool) : (s.setKey k p).idx = s.idx := rfl
@[simp] theorem State.setKey_pc (k : Key) (p : Bool) : (s.setKey k p).pc = s.pc := rfl
@[simp] theorem State.setKey_stk (k : Key) (p : Bool) : (s.setKey k p).stk = s.stk := rfl
@[simp] theorem State.setKey_sp (k : Key) (p : Bool) : (s.setKey k p).sp = s.sp := rfl
@[simp] theorem State.setKey_dt (k : Key) (p : Bool) : (s.setKey k p).dt = s.dt := rfl
@[simp] theorem State.setKey_st (k : Key) (p : Bool) : (s.setKey k p).st = s.st := rfl
@[simp] theorem State.setKey_fb (k : Key) (p : Bool) : (s.setKey k p).fb = s.fb := rfl
@[simp] theorem State.setKey_status (k : Key) (p : Bool) : (s.setKey k p).status = s.status := rfl
@[simp] theorem State.setKey_mode (k : Key) (p : Bool) : (s.setKey k p).mode = s.mode := rfl
@[simp] theorem State.setKey_progEnd (k : Key) (p : Bool) : (s.setKey k p).progEnd = s.progEnd := rfl
@[simp] theorem State.setKey_mem (k : Key) (p : Bool) : (s.setKey k p).mem = s.mem := rfl
@[simp] theorem State.setKey_out (k : Key) (p : Bool) : (s.setKey k p).out = s.out := rfl
@[simp] theorem State.setKey_cfg (k : Key) (p : Bool) : (s.setKey k p).cfg = s.cfg := rfl
@[simp] theorem State.setKey_draws (k : Key) (p : Bool) : (s.setKey k p).draws = s.draws := rfl
@[simp] theorem State.setKey_fillEpoch (k : Key) (p : Bool) : (s.setKey k p).fillEpoch = s.fillEpoch := rfl
@[simp] theorem State.setKey_events (k : Key) (p : Bool) : (s.setKey k p).events = s.events := rfl

/-! ## Outputs -/

@[simp] theorem State.emit_out (e : Output) : (s.emit e).out = s.out ++ [e] := rfl
@[simp] theorem State.emit_x (e : Output) : (s.emit e).x = s.x := rfl
@[simp] theorem State.emit_idx (e : Output) : (s.emit e).idx = s.idx := rfl
@[simp] theorem State.emit_pc (e : Output) : (s.emit e).pc = s.pc := rfl
@[simp] theorem State.emit_stk (e : Output) : (s.emit e).stk = s.stk := rfl
@[simp] theorem State.emit_sp (e : Output) : (s.emit e).sp = s.sp := rfl
@[simp] theorem State.emit_dt (e : Output) : (s.emit e).dt = s.dt := rfl
@[simp] theorem State.emit_st (e : Output) : (s.emit e).st = s.st := rfl
@[simp] theorem State.emit_fb (e : Output) : (s.emit e).fb = s.fb := rfl
@[simp] theorem State.emit_key (e : Output) : (s.emit e).key = s.key := rfl
@[simp] theorem State.emit_status (e : Output) : (s.emit e).status = s.status := rfl
@[simp] theorem State.emit_mode (e : Output) : (s.emit e).mode = s.mode := rfl
@[simp] theorem State.emit_progEnd (e : Output) : (s.emit e).progEnd = s.progEnd := rfl
@[simp] theorem State.emit_mem (e : Output) : (s.emit e).mem = s.mem := rfl
@[simp] theorem State.emit_cfg (e : Output) : (s.emit e).cfg = s.cfg := rfl
@[simp] theorem State.emit_draws (e : Output) : (s.emit e).draws = s.draws := rfl
@[simp] theorem State.emit_fillEpoch (e : Output) : (s.emit e).fillEpoch = s.fillEpoch := rfl
@[simp] theorem State.emit_events (e : Output) : (s.emit e).events = s.events := rfl

/-! ## Sound timer -/

@[simp] theorem State.setSt_st (v : Byte) : (s.setSt v).st = v := rfl
@[simp] theorem State.setSt_out (v : Byte) : (s.setSt v).out = s.out ++ soundEdges s.st v := rfl
@[simp] theorem State.setSt_x (v : Byte) : (s.setSt v).x = s.x := rfl
@[simp] theorem State.setSt_idx (v : Byte) : (s.setSt v).idx = s.idx := rfl
@[simp] theorem State.setSt_pc (v : Byte) : (s.setSt v).pc = s.pc := rfl
@[simp] theorem State.setSt_stk (v : Byte) : (s.setSt v).stk = s.stk := rfl
@[simp] theorem State.setSt_sp (v : Byte) : (s.setSt v).sp = s.sp := rfl
@[simp] theorem State.setSt_dt (v : Byte) : (s.setSt v).dt = s.dt := rfl
@[simp] theorem State.setSt_fb (v : Byte) : (s.setSt v).fb = s.fb := rfl
@[simp] theorem State.setSt_key (v : Byte) : (s.setSt v).key = s.key := rfl
@[simp] theorem State.setSt_status (v : Byte) : (s.setSt v).status = s.status := rfl
@[simp] theorem State.setSt_mode (v : Byte) : (s.setSt v).mode = s.mode := rfl
@[simp] theorem State.setSt_progEnd (v : Byte) : (s.setSt v).progEnd = s.progEnd := rfl
@[simp] theorem State.setSt_mem (v : Byte) : (s.setSt v).mem = s.mem := rfl
@[simp] theorem State.setSt_cfg (v : Byte) : (s.setSt v).cfg = s.cfg := rfl
@[simp] theorem State.setSt_draws (v : Byte) : (s.setSt v).draws = s.draws := rfl
@[simp] theorem State.setSt_fillEpoch (v : Byte) : (s.setSt v).fillEpoch = s.fillEpoch := rfl
@[simp] theorem State.setSt_events (v : Byte) : (s.setSt v).events = s.events := rfl

/-! ## Updates built from these: they change one field, and only that field -/

theorem State.writeBytes_only_mem (a : Nat) (bs : List Byte) : s.writeBytes a bs = { s with mem := (s.writeBytes a bs).mem } := by
  induction bs generalizing s a with
  | nil => rfl
  | cons b bs ih => exact ih (s.writeByte a b) (a + 1)

theorem State.setRegs_only_x (i : Nat) (bs : List Byte) : s.setRegs i bs = { s with x := (s.setRegs i bs).x } := by
  induction bs generalizing s i with
  | nil => rfl
  | cons b bs ih => exact ih (s.setReg (BitVec.ofNat 4 i) b) (i + 1)

theorem State.setResult_only_x (x : Reg) (v : Byte) (f : Bool) : s.setResult x v f = { s with x := (s.setResult x v f).x } := by
  unfold State.setResult
  split <;> rfl

theorem State.skipIf_only_pc (c : Bool) : s.skipIf c = { s with pc := (s.skipIf c).pc } := by
  cases c <;> rfl

/-! ## Writing several bytes -/

@[simp] theorem State.writeBytes_x (a : Nat) (bs : List Byte) : (s.writeBytes a bs).x = s.x := by rw [State.writeBytes_only_mem]
@[simp] theorem State.writeBytes_idx (a : Nat) (bs : List Byte) : (s.writeBytes a bs).idx = s.idx := by rw [State.writeBytes_only_mem]
@[simp] theorem State.writeBytes_pc (a : Nat) (bs : List Byte) : (s.writeBytes a bs).pc = s.pc := by rw [State.writeBytes_only_mem]
@[simp] theorem State.writeBytes_stk (a : Nat) (bs : List Byte) : (s.writeBytes a bs).stk = s.stk := by rw [State.writeBytes_only_mem]
@[simp] theorem State.writeBytes_sp (a : Nat) (bs : List Byte) : (s.writeBytes a bs).sp = s.sp := by rw [State.writeBytes_only_mem]
@[simp] theorem State.writeBytes_dt (a : Nat) (bs : List Byte) : (s.writeBytes a bs).dt = s.dt := by rw [State.writeBytes_only_mem]
@[simp] theorem State.writeBytes_st (a : Nat) (bs : List Byte) : (s.writeBytes a bs).st = s.st := by rw [State.writeBytes_only_mem]
@[simp] theorem State.writeBytes_fb (a : Nat) (bs : List Byte) : (s.writeBytes a bs).fb = s.fb := by rw [State.writeBytes_only_mem]
@[simp] theorem State.writeBytes_key (a : Nat) (bs : List Byte) : (s.writeBytes a bs).key = s.key := by rw [State.writeBytes_only_mem]
@[simp] theorem State.writeBytes_status (a : Nat) (bs : List Byte) : (s.writeBytes a bs).status = s.status := by rw [State.writeBytes_only_mem]
@[simp] theorem State.writeBytes_mode (a : Nat) (bs : List Byte) : (s.writeBytes a bs).mode = s.mode := by rw [State.writeBytes_only_mem]
@[simp] theorem State.writeBytes_progEnd (a : Nat) (bs : List Byte) : (s.writeBytes a bs).progEnd = s.progEnd := by rw [State.writeBytes_only_mem]
@[simp] theorem State.writeBytes_out (a : Nat) (bs : List Byte) : (s.writeBytes a bs).out = s.out := by rw [State.writeBytes_only_mem]
@[simp] theorem State.writeBytes_cfg (a : Nat) (bs : List Byte) : (s.writeBytes a bs).cfg = s.cfg := by rw [State.writeBytes_only_mem]
@[simp] theorem State.writeBytes_draws (a : Nat) (bs : List Byte) : (s.writeBytes a bs).draws = s.draws := by rw [State.writeBytes_only_mem]
@[simp] theorem State.writeBytes_fillEpoch (a : Nat) (bs : List Byte) : (s.writeBytes a bs).fillEpoch = s.fillEpoch := by rw [State.writeBytes_only_mem]
@[simp] theorem State.writeBytes_events (a : Nat) (bs : List Byte) : (s.writeBytes a bs).events = s.events := by rw [State.writeBytes_only_mem]

/-! ## Loading several registers -/

@[simp] theorem State.setRegs_idx (i : Nat) (bs : List Byte) : (s.setRegs i bs).idx = s.idx := by rw [State.setRegs_only_x]
@[simp] theorem State.setRegs_pc (i : Nat) (bs : List Byte) : (s.setRegs i bs).pc = s.pc := by rw [State.setRegs_only_x]
@[simp] theorem State.setRegs_stk (i : Nat) (bs : List Byte) : (s.setRegs i bs).stk = s.stk := by rw [State.setRegs_only_x]
@[simp] theorem State.setRegs_sp (i : Nat) (bs : List Byte) : (s.setRegs i bs).sp = s.sp := by rw [State.setRegs_only_x]
@[simp] theorem State.setRegs_dt (i : Nat) (bs : List Byte) : (s.setRegs i bs).dt = s.dt := by rw [State.setRegs_only_x]
@[simp] theorem State.setRegs_st (i : Nat) (bs : List Byte) : (s.setRegs i bs).st = s.st := by rw [State.setRegs_only_x]
@[simp] theorem State.setRegs_fb (i : Nat) (bs : List Byte) : (s.setRegs i bs).fb = s.fb := by rw [State.setRegs_only_x]
@[simp] theorem State.setRegs_key (i : Nat) (bs : List Byte) : (s.setRegs i bs).key = s.key := by rw [State.setRegs_only_x]
@[simp] theorem State.setRegs_status (i : Nat) (bs : List Byte) : (s.setRegs i bs).status = s.status := by rw [State.setRegs_only_x]
@[simp] theorem State.setRegs_mode (i : Nat) (bs : List Byte) : (s.setRegs i bs).mode = s.mode := by rw [State.setRegs_only_x]
@[simp] theorem State.setRegs_progEnd (i : Nat) (bs : List Byte) : (s.setRegs i bs).progEnd = s.progEnd := by rw [State.setRegs_only_x]
@[simp] theorem State.setRegs_mem (i : Nat) (bs : List Byte) : (s.setRegs i bs).mem = s.mem := by rw [State.setRegs_only_x]
@[simp] theorem State.setRegs_out (i : Nat) (bs : List Byte) : (s.setRegs i bs).out = s.out := by rw [State.setRegs_only_x]
@[simp] theorem State.setRegs_cfg (i : Nat) (bs : List Byte) : (s.setRegs i bs).cfg = s.cfg := by rw [State.setRegs_only_x]
@[simp] theorem State.setRegs_draws (i : Nat) (bs : List Byte) : (s.setRegs i bs).draws = s.draws := by rw [State.setRegs_only_x]
@[simp] theorem State.setRegs_fillEpoch (i : Nat) (bs : List Byte) : (s.setRegs i bs).fillEpoch = s.fillEpoch := by rw [State.setRegs_only_x]
@[simp] theorem State.setRegs_events (i : Nat) (bs : List Byte) : (s.setRegs i bs).events = s.events := by rw [State.setRegs_only_x]

/-! ## Result and flag -/

@[simp] theorem State.setResult_idx (x : Reg) (v : Byte) (f : Bool) : (s.setResult x v f).idx = s.idx := by rw [State.setResult_only_x]
@[simp] theorem State.setResult_pc (x : Reg) (v : Byte) (f : Bool) : (s.setResult x v f).pc = s.pc := by rw [State.setResult_only_x]
@[simp] theorem State.setResult_stk (x : Reg) (v : Byte) (f : Bool) : (s.setResult x v f).stk = s.stk := by rw [State.setResult_only_x]
@[simp] theorem State.setResult_sp (x : Reg) (v : Byte) (f : Bool) : (s.setResult x v f).sp = s.sp := by rw [State.setResult_only_x]
@[simp] theorem State.setResult_dt (x : Reg) (v : Byte) (f : Bool) : (s.setResult x v f).dt = s.dt := by rw [State.setResult_only_x]
@[simp] theorem State.setResult_st (x : Reg) (v : Byte) (f : Bool) : (s.setResult x v f).st = s.st := by rw [State.setResult_only_x]
@[simp] theorem State.setResult_fb (x : Reg) (v : Byte) (f : Bool) : (s.setResult x v f).fb = s.fb := by rw [State.setResult_only_x]
@[simp] theorem State.setResult_key (x : Reg) (v : Byte) (f : Bool) : (s.setResult x v f).key = s.key := by rw [State.setResult_only_x]
@[simp] theorem State.setResult_status (x : Reg) (v : Byte) (f : Bool) : (s.setResult x v f).status = s.status := by rw [State.setResult_only_x]
@[simp] theorem State.setResult_mode (x : Reg) (v : Byte) (f : Bool) : (s.setResult x v f).mode = s.mode := by rw [State.setResult_only_x]
@[simp] theorem State.setResult_progEnd (x : Reg) (v : Byte) (f : Bool) : (s.setResult x v f).progEnd = s.progEnd := by rw [State.setResult_only_x]
@[simp] theorem State.setResult_mem (x : Reg) (v : Byte) (f : Bool) : (s.setResult x v f).mem = s.mem := by rw [State.setResult_only_x]
@[simp] theorem State.setResult_out (x : Reg) (v : Byte) (f : Bool) : (s.setResult x v f).out = s.out := by rw [State.setResult_only_x]
@[simp] theorem State.setResult_cfg (x : Reg) (v : Byte) (f : Bool) : (s.setResult x v f).cfg = s.cfg := by rw [State.setResult_only_x]
@[simp] theorem State.setResult_draws (x : Reg) (v : Byte) (f : Bool) : (s.setResult x v f).draws = s.draws := by rw [State.setResult_only_x]
@[simp] theorem State.setResult_fillEpoch (x : Reg) (v : Byte) (f : Bool) : (s.setResult x v f).fillEpoch = s.fillEpoch := by rw [State.setResult_only_x]
@[simp] theorem State.setResult_events (x : Reg) (v : Byte) (f : Bool) : (s.setResult x v f).events = s.events := by rw [State.setResult_only_x]

/-! ## Skip -/

@[simp] theorem State.skipIf_x (c : Bool) : (s.skipIf c).x = s.x := by rw [State.skipIf_only_pc]
@[simp] theorem State.skipIf_idx (c : Bool) : (s.skipIf c).idx = s.idx := by rw [State.skipIf_only_pc]
@[simp] theorem State.skipIf_stk (c : Bool) : (s.skipIf c).stk = s.stk := by rw [State.skipIf_only_pc]
@[simp] theorem State.skipIf_sp (c : Bool) : (s.skipIf c).sp = s.sp := by rw [State.skipIf_only_pc]
@[simp] theorem State.skipIf_dt (c : Bool) : (s.skipIf c).dt = s.dt := by rw [State.skipIf_only_pc]
@[simp] theorem State.skipIf_st (c : Bool) : (s.skipIf c).st = s.st := by rw [State.skipIf_only_pc]
@[simp] theorem State.skipIf_fb (c : Bool) : (s.skipIf c).fb = s.fb := by rw [State.skipIf_only_pc]
@[simp] theorem State.skipIf_key (c : Bool) : (s.skipIf c).key = s.key := by rw [State.skipIf_only_pc]
@[simp] theorem State.skipIf_status (c : Bool) : (s.skipIf c).status = s.status := by rw [State.skipIf_only_pc]
@[simp] theorem State.skipIf_mode (c : Bool) : (s.skipIf c).mode = s.mode := by rw [State.skipIf_only_pc]
@[simp] theorem State.skipIf_progEnd (c : Bool) : (s.skipIf c).progEnd = s.progEnd := by rw [State.skipIf_only_pc]
@[simp] theorem State.skipIf_mem (c : Bool) : (s.skipIf c).mem = s.mem := by rw [State.skipIf_only_pc]
@[simp] theorem State.skipIf_out (c : Bool) : (s.skipIf c).out = s.out := by rw [State.skipIf_only_pc]
@[simp] theorem State.skipIf_cfg (c : Bool) : (s.skipIf c).cfg = s.cfg := by rw [State.skipIf_only_pc]
@[simp] theorem State.skipIf_draws (c : Bool) : (s.skipIf c).draws = s.draws := by rw [State.skipIf_only_pc]
@[simp] theorem State.skipIf_fillEpoch (c : Bool) : (s.skipIf c).fillEpoch = s.fillEpoch := by rw [State.skipIf_only_pc]
@[simp] theorem State.skipIf_events (c : Bool) : (s.skipIf c).events = s.events := by rw [State.skipIf_only_pc]

@[simp] theorem State.skipIf_pc (c : Bool) : (s.skipIf c).pc = if c then s.pc + 2 else s.pc := by
  cases c <;> rfl

/-! ## The next event -/

theorem State.nextEvent_nil (h : s.events = []) : s.nextEvent = (.cycle, s) := by
  simp [State.nextEvent, h]

theorem State.nextEvent_cons {e : Event} {es : List Event} (h : s.events = e :: es) :
    s.nextEvent = (e, { s with events := es }) := by
  simp [State.nextEvent, h]

theorem State.nextEvent_only_events : s.nextEvent.2 = { s with events := s.nextEvent.2.events } := by
  unfold State.nextEvent
  split <;> rfl

@[simp] theorem State.nextEvent_x : s.nextEvent.2.x = s.x := by rw [State.nextEvent_only_events]
@[simp] theorem State.nextEvent_idx : s.nextEvent.2.idx = s.idx := by rw [State.nextEvent_only_events]
@[simp] theorem State.nextEvent_pc : s.nextEvent.2.pc = s.pc := by rw [State.nextEvent_only_events]
@[simp] theorem State.nextEvent_stk : s.nextEvent.2.stk = s.stk := by rw [State.nextEvent_only_events]
@[simp] theorem State.nextEvent_sp : s.nextEvent.2.sp = s.sp := by rw [State.nextEvent_only_events]
@[simp] theorem State.nextEvent_dt : s.nextEvent.2.dt = s.dt := by rw [State.nextEvent_only_events]
@[simp] theorem State.nextEvent_st : s.nextEvent.2.st = s.st := by rw [State.nextEvent_only_events]
@[simp] theorem State.nextEvent_fb : s.nextEvent.2.fb = s.fb := by rw [State.nextEvent_only_events]
@[simp] theorem State.nextEvent_key : s.nextEvent.2.key = s.key := by rw [State.nextEvent_only_events]
@[simp] theorem State.nextEvent_status : s.nextEvent.2.status = s.status := by rw [State.nextEvent_only_events]
@[simp] theorem State.nextEvent_mode : s.nextEvent.2.mode = s.mode := by rw [State.nextEvent_only_events]
@[simp] theorem State.nextEvent_progEnd : s.nextEvent.2.progEnd = s.progEnd := by rw [State.nextEvent_only_events]
@[simp] theorem State.nextEvent_mem : s.nextEvent.2.mem = s.mem := by rw [State.nextEvent_only_events]
@[simp] theorem State.nextEvent_out : s.nextEvent.2.out = s.out := by rw [State.nextEvent_only_events]
@[simp] theorem State.nextEvent_cfg : s.nextEvent.2.cfg = s.cfg := by rw [State.nextEvent_only_events]
@[simp] theorem State.nextEvent_draws : s.nextEvent.2.draws = s.draws := by rw [State.nextEvent_only_events]
@[simp] theorem State.nextEvent_fillEpoch : s.nextEvent.2.fillEpoch = s.fillEpoch := by rw [State.nextEvent_only_events]

end Sys2Proof.Machine
end

