-- ==== Sys2Proof/Laws/Memory.lean ====
section
/-! SUPPORT. Memory: a read after a write, and every memory operation keeps the canonical form. The read laws need no well-formedness;
they hold in every state. -/

namespace Sys2Proof.Machine

/-! ## What a memory lists after an operation -/

theorem Memory.listed_put (m : Memory) (a : Nat) (b : Byte) (c : Nat) :
    Memory.listed (Memory.put m a b) c = if c = a then some b else Memory.listed m c := by
  induction m with
  | nil => simp [Memory.put, Memory.listed, eq_comm]
  | cons e m ih =>
    obtain ⟨k, v⟩ := e
    unfold Memory.put
    by_cases hlt : a < k
    · simp [hlt, Memory.listed, eq_comm]
    · by_cases heq : a = k
      · subst heq
        by_cases hc : c = a
        · simp [Memory.listed, hc]
        · simp [Memory.listed, hc, Ne.symm hc]
      · by_cases hk : k = c
        · subst hk
          simp [hlt, heq, Memory.listed, Ne.symm heq]
        · simp [hlt, heq, Memory.listed, hk, ih]

theorem Memory.listed_drop (m : Memory) (a c : Nat) :
    Memory.listed (Memory.drop m a) c = if c = a then none else Memory.listed m c := by
  unfold Memory.drop
  induction m with
  | nil => simp [Memory.listed]
  | cons e m ih =>
    obtain ⟨k, v⟩ := e
    by_cases hka : k = a
    · subst hka
      by_cases hc : c = k
      · simpa [hc] using ih
      · simpa [hc, Memory.listed, Ne.symm hc] using ih
    · by_cases hkc : k = c
      · subst hkc
        simp [Memory.listed, hka]
      · simpa [hka, Memory.listed, hkc] using ih

/-! ## Reading after writing -/

/-- A byte read after a write is the byte written, and every other byte is what it was (R59). -/
@[simp] theorem State.readByte_writeByte (s : State) (a : Nat) (b : Byte) (c : Nat) :
    (s.writeByte a b).readByte c = if c = a then b else s.readByte c := by
  have hu : (s.writeByte a b).unwritten c = s.unwritten c := rfl
  unfold State.readByte
  rw [hu, State.writeByte_mem]
  unfold Memory.write
  by_cases hfont : s.cfg.font[a]? = some b
  · rw [if_pos hfont, Memory.listed_drop]
    by_cases hc : c = a
    · subst hc
      simp [State.unwritten, hfont]
    · simp [hc]
  · rw [if_neg hfont, Memory.listed_put]
    by_cases hc : c = a <;> simp [hc]

/-- Bytes outside the written range are what they were. -/
theorem State.readByte_writeBytes_outside (s : State) (a : Nat) (bs : List Byte) (c : Nat) (h : c < a ∨ a + bs.length ≤ c) :
    (s.writeBytes a bs).readByte c = s.readByte c := by
  induction bs generalizing s a with
  | nil => rfl
  | cons b bs ih =>
    simp only [List.length_cons] at h
    show ((s.writeByte a b).writeBytes (a + 1) bs).readByte c = _
    rw [ih (s.writeByte a b) (a + 1) (by omega), State.readByte_writeByte, if_neg (by omega)]

/-- Byte `i` of the written range is byte `i` written. -/
theorem State.readByte_writeBytes_inside (s : State) (a : Nat) (bs : List Byte) (i : Nat) (h : i < bs.length) :
    (s.writeBytes a bs).readByte (a + i) = bs[i] := by
  induction bs generalizing s a i with
  | nil => simp at h
  | cons b bs ih =>
    show ((s.writeByte a b).writeBytes (a + 1) bs).readByte (a + i) = _
    cases i with
    | zero =>
      rw [State.readByte_writeBytes_outside _ _ _ _ (by omega), State.readByte_writeByte]
      simp
    | succ i =>
      have := ih (s.writeByte a b) (a + 1) i (by simpa using h)
      rw [show a + (i + 1) = a + 1 + i by omega, this]
      simp

/-- What a byte of memory reads as depends on the memory, the font and the fill alone. -/
theorem State.readByte_congr {s t : State} (hm : t.mem = s.mem) (hc : t.cfg = s.cfg) (he : t.fillEpoch = s.fillEpoch) (a : Nat) :
    t.readByte a = s.readByte a := by
  simp only [State.readByte, State.unwritten, hm, hc, he]

theorem State.wordAt_congr {s t : State} (hm : t.mem = s.mem) (hc : t.cfg = s.cfg) (he : t.fillEpoch = s.fillEpoch) (a : Nat) :
    t.wordAt a = s.wordAt a := by
  simp only [State.wordAt, State.readByte_congr hm hc he]

/-! ## The canonical form -/

variable {font : Vector Byte fontSize}

theorem Memory.mem_put {m : Memory} {a : Nat} {b : Byte} {e : Host.Cell} (h : e ∈ Memory.put m a b) : e = (a, b) ∨ e ∈ m := by
  induction m with
  | nil => simpa [Memory.put] using h
  | cons c m ih =>
    obtain ⟨k, v⟩ := c
    unfold Memory.put at h
    split at h
    · simpa using h
    · split at h
      · rcases List.mem_cons.1 h with h | h
        · exact .inl h
        · exact .inr (List.mem_cons_of_mem _ h)
      · rcases List.mem_cons.1 h with h | h
        · exact .inr (by simp [h])
        · rcases ih h with h | h
          · exact .inl h
          · exact .inr (List.mem_cons_of_mem _ h)

theorem Memory.put_sorted {m : Memory} (a : Nat) (b : Byte) (h : m.Pairwise (fun c d => c.1 < d.1)) :
    (Memory.put m a b).Pairwise (fun c d => c.1 < d.1) := by
  induction m with
  | nil => simp [Memory.put]
  | cons c m ih =>
    obtain ⟨k, v⟩ := c
    obtain ⟨hk, hm⟩ := List.pairwise_cons.1 h
    unfold Memory.put
    split
    · rename_i hlt
      refine List.pairwise_cons.2 ⟨fun e he => ?_, h⟩
      rcases List.mem_cons.1 he with rfl | he
      · exact hlt
      · exact Nat.lt_trans hlt (hk e he)
    · split
      · rename_i heq
        subst heq
        exact List.pairwise_cons.2 ⟨hk, hm⟩
      · rename_i hlt heq
        refine List.pairwise_cons.2 ⟨fun e he => ?_, ih hm⟩
        rcases Memory.mem_put he with rfl | he
        · show k < a
          omega
        · exact hk e he

/-- A write inside the address space keeps the canonical form. -/
theorem Memory.write_wf {m : Memory} {a : Nat} (b : Byte) (ha : a < memSize) (h : Memory.wf font m) :
    Memory.wf font (Memory.write font m a b) := by
  unfold Memory.write
  split
  · exact ⟨h.1.sublist List.filter_sublist, fun e he => h.2 e (List.mem_of_mem_filter he)⟩
  · rename_i hb
    refine ⟨Memory.put_sorted a b h.1, fun e he => ?_⟩
    rcases Memory.mem_put he with rfl | he
    · exact ⟨ha, hb⟩
    · exact h.2 e he

theorem State.writeBytes_wf (s : State) (a : Nat) (bs : List Byte) (ha : a + bs.length ≤ memSize)
    (h : Memory.wf s.cfg.font s.mem) : Memory.wf s.cfg.font (s.writeBytes a bs).mem := by
  induction bs generalizing s a with
  | nil => exact h
  | cons b bs ih =>
    simp only [List.length_cons] at ha
    exact ih (s.writeByte a b) (a + 1) (by omega) (Memory.write_wf b (by omega) h)

/-- Forgetting the cells outside the font keeps the canonical form (R205, R208). -/
theorem Memory.fontCells_wf {m : Memory} (h : Memory.wf font m) : Memory.wf font (Memory.fontCells m) :=
  ⟨h.1.sublist List.filter_sublist, fun e he => h.2 e (List.mem_of_mem_filter he)⟩

theorem mem_imageCells {a : Nat} {image : List Byte} {e : Host.Cell} (h : e ∈ imageCells a image) :
    a ≤ e.1 ∧ e.1 < a + image.length := by
  induction image generalizing a with
  | nil => simp [imageCells] at h
  | cons b bs ih =>
    rcases List.mem_cons.1 h with rfl | h
    · simp
    · have := ih h
      simp only [List.length_cons]
      omega

theorem imageCells_sorted (a : Nat) (image : List Byte) : (imageCells a image).Pairwise (fun c d => c.1 < d.1) := by
  induction image generalizing a with
  | nil => simp [imageCells]
  | cons b bs ih =>
    refine List.pairwise_cons.2 ⟨fun e he => ?_, ih (a + 1)⟩
    have := (mem_imageCells he).1
    show a < e.1
    omega

/-- Loading an image that fits keeps the canonical form (R204). -/
theorem Memory.load_wf {m : Memory} {image : List Byte} (hlen : image.length ≤ maxImage) (h : Memory.wf font m) :
    Memory.wf font (Memory.fontCells m ++ imageCells loadBase image) := by
  have hf := Memory.fontCells_wf h
  refine ⟨List.pairwise_append.2 ⟨hf.1, imageCells_sorted _ _, fun c hc d hd => ?_⟩, fun e he => ?_⟩
  · have h1 : c.1 < fontSize := by simpa using (List.mem_filter.1 hc).2
    have h2 := (mem_imageCells hd).1
    simp only [fontSize, loadBase] at h1 h2
    omega
  · rcases List.mem_append.1 he with he | he
    · exact hf.2 e he
    · have h2 := mem_imageCells he
      simp only [loadBase, maxImage] at h2 hlen
      refine ⟨by simp only [memSize]; omega, ?_⟩
      rw [Vector.getElem?_eq_none (by simp only [fontSize]; omega)]
      simp

/-- The memory right after POWER_ON is canonical: it lists nothing. -/
theorem powerOn_wf (cfg : Config) : Memory.wf cfg.font (State.powerOn cfg).mem :=
  ⟨List.Pairwise.nil, by simp [State.powerOn]⟩

/-! ## What the initialising events leave to read -/

theorem listed_fontCells (m : Memory) (a : Nat) :
    Memory.listed (Memory.fontCells m) a = if a < fontSize then Memory.listed m a else none := by
  unfold Memory.fontCells
  induction m with
  | nil => simp [Memory.listed]
  | cons e m ih =>
    obtain ⟨k, v⟩ := e
    by_cases hk : k < fontSize
    · by_cases hka : k = a
      · subst hka
        simp [Memory.listed, hk]
      · simp [Memory.listed, hk, hka, ih]
    · by_cases hka : k = a
      · subst hka
        simpa [hk] using ih
      · simpa [hk, Memory.listed, hka] using ih

theorem listed_append (m n : Memory) (a : Nat) : Memory.listed (m ++ n) a = (Memory.listed m a).or (Memory.listed n a) := by
  induction m with
  | nil => simp [Memory.listed]
  | cons e m ih =>
    obtain ⟨k, v⟩ := e
    by_cases hka : k = a <;> simp [Memory.listed, hka, ih]

theorem listed_imageCells (b : Nat) (image : List Byte) (a : Nat) :
    Memory.listed (imageCells b image) a = if b ≤ a then image[a - b]? else none := by
  induction image generalizing b with
  | nil => simp [imageCells, Memory.listed]
  | cons v image ih =>
    unfold imageCells Memory.listed
    by_cases hba : b = a
    · subst hba
      simp
    · rw [if_neg hba, ih]
      by_cases h : b ≤ a
      · rw [if_pos h, if_pos (by omega), show a - b = (a - (b + 1)) + 1 by omega, List.getElem?_cons_succ]
      · rw [if_neg h, if_neg (by omega)]

end Sys2Proof.Machine
end

