-- ==== Sys2Proof/Laws/Ops.lean ====
section
/-! SUPPORT. What each shared operation can do, said once: registers, the stack, the range check, the key test, result and flag, the
sound edges. -/

namespace Sys2Proof.Machine

variable (s : State)

/-! ## Registers -/

/-- A register read after a write (R10). -/
@[simp] theorem State.reg_setReg (r q : Reg) (v : Byte) : (s.setReg r v).reg q = if q = r then v else s.reg q := by
  simp only [State.reg, State.setReg]
  by_cases h : q = r
  · subst h
    simp
  · have hn : r.toNat ≠ q.toNat := fun e => h (BitVec.eq_of_toNat_eq e.symm)
    rw [if_neg h, Vector.getElem_set_ne (h := hn)]

/-- Only the registers are read for a register. -/
theorem State.reg_congr {s t : State} (h : t.x = s.x) (r : Reg) : t.reg r = s.reg r := by
  simp only [State.reg, h]

@[simp] theorem State.length_regs (n : Nat) : (s.regs n).length = n := by
  simp [State.regs]

@[simp] theorem State.getElem_regs (n i : Nat) (h : i < (s.regs n).length) : (s.regs n)[i] = s.reg (BitVec.ofNat 4 i) := by
  simp [State.regs]

@[simp] theorem State.length_readBytes (a n : Nat) : (s.readBytes a n).length = n := by
  simp [State.readBytes]

@[simp] theorem State.getElem_readBytes (a n i : Nat) (h : i < (s.readBytes a n).length) :
    (s.readBytes a n)[i] = s.readByte (a + i) := by
  simp [State.readBytes]

/-- Loading bytes into the registers from number `i` up: those registers hold the bytes, the others what they held (R158). -/
theorem State.reg_setRegs (i : Nat) (bs : List Byte) (q : Reg) (h : i + bs.length ≤ 16) :
    (s.setRegs i bs).reg q = if i ≤ q.toNat then bs[q.toNat - i]?.getD (s.reg q) else s.reg q := by
  induction bs generalizing s i with
  | nil => simp [State.setRegs]
  | cons b bs ih =>
    simp only [List.length_cons] at h
    show ((s.setReg (BitVec.ofNat 4 i) b).setRegs (i + 1) bs).reg q = _
    rw [ih (s.setReg (BitVec.ofNat 4 i) b) (i + 1) (by omega), State.reg_setReg]
    have hi : (BitVec.ofNat 4 i).toNat = i := by
      rw [BitVec.toNat_ofNat]
      omega
    by_cases hq : q = BitVec.ofNat 4 i
    · subst hq
      simp [hi]
    · have hne : q.toNat ≠ i := fun e => hq (BitVec.eq_of_toNat_eq (by omega))
      by_cases hle : i ≤ q.toNat
      · rw [if_pos (by omega), if_pos hle, if_neg hq, show q.toNat - i = (q.toNat - (i + 1)) + 1 by omega,
          List.getElem?_cons_succ]
      · rw [if_neg (by omega), if_neg hle, if_neg hq]

/-! ## Key latch -/

@[simp] theorem State.keyDown_setKey (k j : Key) (p : Bool) : (s.setKey k p).keyDown j = if j = k then p else s.keyDown j := by
  simp only [State.keyDown, State.setKey]
  by_cases h : j = k
  · subst h
    simp
  · have hn : k.toNat ≠ j.toNat := fun e => h (BitVec.eq_of_toNat_eq e.symm)
    rw [if_neg h, Vector.getElem_set_ne (h := hn)]

/-! ## Result and flag -/

/-- What an arithmetic instruction with a flag leaves (R111). -/
theorem State.setResult_spec (x : Reg) (v : Byte) (f : Bool) : ResultAndFlag s (s.setResult x v f) x v (f = true) := by
  refine ⟨fun r => ?_, State.setResult_only_x s x v f⟩
  unfold State.setResult
  cases hv : s.cfg.vfOrder with
  | flagLast =>
    by_cases h15 : r = 15#4 <;> simp [h15, flagByte]
  | resultLast =>
    by_cases hx : r = x
    · subst hx
      by_cases h15 : r = 15#4 <;> simp [h15]
    · by_cases h15 : r = 15#4
      · subst h15
        simp [hx, Ne.symm hx, flagByte]
      · simp [hx, h15]

/-! ## The stack -/

/-- Push: with room the entry goes on top, else nothing (R102). -/
theorem State.push_spec (a : Word) :
    (s.sp.val = 16 ∧ s.push a = none) ∨
    (∃ h : s.sp.val < 16, s.push a = some { s with stk := s.stk.set s.sp.val a, sp := ⟨s.sp.val + 1, by omega⟩ }) := by
  have := s.sp.isLt
  by_cases h : s.sp.val < 16
  · exact .inr ⟨h, by simp [State.push, h]⟩
  · exact .inl ⟨by omega, by simp [State.push, h]⟩

/-- Pop: with an entry the top one is given and the count goes down, else nothing (R103). -/
theorem State.pop_spec :
    (s.sp.val = 0 ∧ s.pop = none) ∨
    (∃ h : 0 < s.sp.val, s.pop = some (s.stk[s.sp.val - 1], { s with sp := ⟨s.sp.val - 1, by omega⟩ })) := by
  by_cases h : 0 < s.sp.val
  · exact .inr ⟨h, by simp [State.pop, h]⟩
  · exact .inl ⟨by omega, by simp [State.pop, h]⟩

/-! ## Faults and checks -/

/-- Taking a fault answers a next state that differs in `status` alone (R172). -/
theorem State.raise_eq (h : Halt) : s.raise h = .next { s with status := .halted h } := rfl

/-- The range check: the fault above 4095, else the instruction goes on (R57). -/
theorem State.checkLast_of_le {last : Nat} (go : Result) (h : last ≤ 4095) : s.checkLast last go = go :=
  if_neg (by simp only [memSize]; omega)

theorem State.checkLast_of_gt {last : Nat} (go : Result) (h : 4095 < last) :
    s.checkLast last go = .next { s with status := .halted (.addressOutOfRange last) } :=
  if_pos (by simp only [memSize]; omega)

/-- The key test: the fault above 15, else a skip by the latch (R140 to R142). -/
theorem State.keyTest_spec (k : Byte) (want : Bool) :
    (15 < k.toNat ∧ s.keyTest k want = .next { s with status := .halted (.keyIndexOutOfRange k) }) ∨
    (k.toNat ≤ 15 ∧ s.keyTest k want = .next (s.skipIf (s.keyDown (k.setWidth 4) == want))) := by
  unfold State.keyTest
  by_cases h : 15 < k.toNat
  · exact .inl ⟨h, if_pos h⟩
  · exact .inr ⟨by omega, if_neg h⟩

/-- A two-byte read inside the address space gives the big-endian word (R10, R54). -/
theorem State.memRead2_of_lt {a : Nat} (h : a ≤ 4094) : s.memRead2 a = .ok (s.wordAt a) := by
  have h1 : ¬memSize ≤ a := by simp only [memSize]; omega
  have h2 : ¬memSize ≤ a + 1 := by simp only [memSize]; omega
  simp [State.memRead2, State.memRead1, h1, h2, State.wordAt]

/-- A two-byte read at 4095 faults at 4096 (R92). -/
theorem State.memRead2_last : s.memRead2 4095 = .error (.addressOutOfRange 4096) := by
  simp [State.memRead2, State.memRead1, memSize]

/-- A two-byte read above the address space faults at its first byte (R10). -/
theorem State.memRead2_of_gt {a : Nat} (h : 4095 < a) : s.memRead2 a = .error (.addressOutOfRange a) := by
  have h1 : memSize ≤ a := by simp only [memSize]; omega
  simp [State.memRead2, State.memRead1, h1]

/-! ## The sound edges -/

theorem soundLevelFrom_append (level : Bool) (a b : List Output) :
    soundLevelFrom level (a ++ b) = (soundLevelFrom level a).bind (fun l => soundLevelFrom l b) := by
  induction a generalizing level with
  | nil => rfl
  | cons e a ih => cases e <;> cases level <;> simp [soundLevelFrom, ih]

/-- The edges of one change of the timer lead from the old level to the new (R182). -/
theorem soundLevelFrom_edges (old new : Byte) : soundLevelFrom (old != 0) (soundEdges old new) = some (new != 0) := by
  unfold soundEdges
  by_cases ho : old = 0#8 <;> by_cases hn : new = 0#8 <;>
    simp [ho, hn, soundLevelFrom, bne_iff_ne.2]

/-- A write of the sound timer keeps the trace alternating and in step with the timer (R182). -/
theorem State.setSt_sound (v : Byte) (h : s.SoundInv) : (s.setSt v).SoundInv := by
  have h' : soundLevelFrom false s.out = some (s.st != 0) := h
  show soundLevelFrom false (s.out ++ soundEdges s.st v) = some (v != 0)
  rw [soundLevelFrom_append, h']
  exact soundLevelFrom_edges s.st v

end Sys2Proof.Machine
end

