-- ==== Sys2Proof/Laws/Display.lean ====
section
/-! SUPPORT. What drawing a sprite does, said once cell by cell: it plots the cells the sprite covers, each once
(spec/45_display.md R134, R135). -/

namespace Sys2Proof.Machine

@[simp] theorem Screen.get_put (f : Screen) (y v : Fin 32) (x u : Fin 64) (b : Bool) :
    Screen.get (Screen.put f y x b) v u = if v = y ∧ u = x then b else Screen.get f v u := by
  unfold Screen.get Screen.put
  by_cases hy : v = y
  · subst hy
    by_cases hx : u = x
    · subst hx
      simp
    · simp [hx, Vector.getElem_set_ne (h := fun e => hx (Fin.ext e.symm))]
  · simp [hy, Vector.getElem_set_ne (h := fun e => hy (Fin.ext e.symm))]

@[simp] theorem Screen.get_clear (y : Fin 32) (x : Fin 64) : Screen.get Screen.clear y x = false := by
  simp [Screen.get, Screen.clear]

/-- Two framebuffers with equal cells are equal. -/
theorem Screen.ext_get {f g : Screen} (h : ∀ y x, Screen.get f y x = Screen.get g y x) : f = g := by
  apply Vector.ext
  intro y hy
  apply Vector.ext
  intro x hx
  exact h ⟨y, hy⟩ ⟨x, hx⟩

/-! ## Plotting a list of cells -/

/-- Plot cells one after the other. -/
def plots (p : Screen × Bool) (cells : List (Fin 32 × Fin 64)) : Screen × Bool :=
  cells.foldl (fun p c => plot p c.1 c.2) p

theorem plots_append (p : Screen × Bool) (a b : List (Fin 32 × Fin 64)) : plots p (a ++ b) = plots (plots p a) b :=
  List.foldl_append

/-- Plotting distinct cells inverts exactly those cells. -/
theorem get_plots (p : Screen × Bool) {cells : List (Fin 32 × Fin 64)} (h : cells.Nodup) (y : Fin 32) (x : Fin 64) :
    Screen.get (plots p cells).1 y x = (Screen.get p.1 y x ^^ decide ((y, x) ∈ cells)) := by
  induction cells generalizing p with
  | nil => simp [plots]
  | cons c cells ih =>
    obtain ⟨hc, hn⟩ := List.nodup_cons.1 h
    show Screen.get (plots (plot p c.1 c.2) cells).1 y x = _
    rw [ih _ hn]
    obtain ⟨cy, cx⟩ := c
    by_cases he : (y, x) = (cy, cx)
    · obtain ⟨rfl, rfl⟩ := Prod.mk.inj he
      simp [plot, hc]
    · have he' : ¬(y = cy ∧ x = cx) := fun e => he (by rw [e.1, e.2])
      simp [plot, he, he']

/-- A collision is recorded exactly when one of the distinct cells plotted was on (R134). -/
theorem hit_plots (p : Screen × Bool) {cells : List (Fin 32 × Fin 64)} (h : cells.Nodup) :
    (plots p cells).2 = true ↔ p.2 = true ∨ ∃ c ∈ cells, Screen.get p.1 c.1 c.2 = true := by
  induction cells generalizing p with
  | nil => simp [plots]
  | cons c cells ih =>
    obtain ⟨hc, hn⟩ := List.nodup_cons.1 h
    show (plots (plot p c.1 c.2) cells).2 = true ↔ _
    rw [ih _ hn]
    have hkeep : ∀ d ∈ cells, Screen.get (plot p c.1 c.2).1 d.1 d.2 = Screen.get p.1 d.1 d.2 := by
      intro d hd
      have hne : ¬(d.1 = c.1 ∧ d.2 = c.2) := fun e => hc (by rwa [← Prod.ext e.1 e.2])
      simp [plot, hne]
    constructor
    · rintro (h | ⟨d, hd, hg⟩)
      · rcases (by simpa [plot] using h : p.2 = true ∨ Screen.get p.1 c.1 c.2 = true) with h | h
        · exact .inl h
        · exact .inr ⟨c, by simp, h⟩
      · exact .inr ⟨d, by simp [hd], by rwa [hkeep d hd] at hg⟩
    · rintro (h | ⟨d, hd, hg⟩)
      · exact .inl (by simp [plot, h])
      · rcases List.mem_cons.1 hd with rfl | hd
        · exact .inl (by simp [plot, hg])
        · exact .inr ⟨d, hd, by rwa [hkeep d hd]⟩

/-! ## The cells of a sprite -/

/-- The cells a sprite row covers, by rising column offset. -/
def rowCells (ox : Nat) (y : Fin 32) (b : Byte) : List (Fin 32 × Fin 64) :=
  ((List.range 8).filter (spriteBit b)).map (fun c => (y, Fin.ofNat 64 (ox + c)))

/-- The cells a sprite covers. -/
def spriteCells (ox oy : Nat) : List Byte → List (Fin 32 × Fin 64)
  | [] => []
  | b :: bs => rowCells ox (Fin.ofNat 32 oy) b ++ spriteCells ox (oy + 1) bs

theorem drawRow_eq_plots (ox : Nat) (y : Fin 32) (b : Byte) (p : Screen × Bool) :
    drawRow ox y b p = plots p (rowCells ox y b) := by
  unfold drawRow rowCells plots
  rw [List.foldl_map, List.foldl_filter]

theorem drawRows_eq_plots (ox oy : Nat) (bs : List Byte) (p : Screen × Bool) :
    drawRows ox oy bs p = plots p (spriteCells ox oy bs) := by
  induction bs generalizing oy p with
  | nil => rfl
  | cons b bs ih =>
    unfold drawRows spriteCells
    rw [ih, drawRow_eq_plots, plots_append]

theorem mem_rowCells {ox : Nat} {y v : Fin 32} {b : Byte} {x : Fin 64} :
    (v, x) ∈ rowCells ox y b ↔ v = y ∧ ∃ c < 8, spriteBit b c = true ∧ (ox + c) % 64 = x.val := by
  simp only [rowCells, List.mem_map, List.mem_filter, List.mem_range, Prod.mk.injEq]
  constructor
  · rintro ⟨c, ⟨hc, hb⟩, rfl, rfl⟩
    exact ⟨rfl, c, hc, hb, rfl⟩
  · rintro ⟨rfl, c, hc, hb, hx⟩
    exact ⟨c, ⟨hc, hb⟩, rfl, Fin.ext hx⟩

theorem mem_spriteCells {ox oy : Nat} {bs : List Byte} {y : Fin 32} {x : Fin 64} :
    (y, x) ∈ spriteCells ox oy bs ↔
      ∃ r c : Nat, ∃ h : r < bs.length, c < 8 ∧ (ox + c) % 64 = x.val ∧ (oy + r) % 32 = y.val ∧ spriteBit bs[r] c = true := by
  induction bs generalizing oy with
  | nil => simp [spriteCells]
  | cons b bs ih =>
    unfold spriteCells
    rw [List.mem_append, ih, mem_rowCells]
    constructor
    · rintro (⟨hy, c, hc, hb, hx⟩ | ⟨r, c, h, hc, hx, hy, hb⟩)
      · exact ⟨0, c, by simp, hc, hx, by rw [hy]; rfl, by simpa using hb⟩
      · exact ⟨r + 1, c, by simpa using h, hc, hx, by rw [← hy]; congr 1; omega, by simpa using hb⟩
    · rintro ⟨r, c, h, hc, hx, hy, hb⟩
      cases r with
      | zero => exact .inl ⟨Fin.ext hy.symm, c, hc, by simpa using hb, hx⟩
      | succ r =>
        exact .inr ⟨r, c, by simpa using h, hc, hx, by rw [← hy]; congr 1; omega, by simpa using hb⟩

/-- Within one sprite no cell is visited twice (R135). -/
theorem nodup_spriteCells (ox oy : Nat) {bs : List Byte} (h : bs.length ≤ 32) : (spriteCells ox oy bs).Nodup := by
  induction bs generalizing oy with
  | nil => simp [spriteCells]
  | cons b bs ih =>
    simp only [List.length_cons] at h
    unfold spriteCells
    refine List.nodup_append.2 ⟨?_, ih (oy + 1) (by omega), ?_⟩
    · unfold rowCells
      refine List.Nodup.map_on ?_ (List.nodup_range.filter _)
      intro c hc d hd he
      have hc8 : c < 8 := List.mem_range.1 (List.mem_of_mem_filter hc)
      have hd8 : d < 8 := List.mem_range.1 (List.mem_of_mem_filter hd)
      have hmod : (ox + c) % 64 = (ox + d) % 64 := congrArg Fin.val (Prod.mk.inj he).2
      omega
    · rintro ⟨y, x⟩ h1 ⟨v, u⟩ h2 he
      obtain ⟨rfl, rfl⟩ := Prod.mk.inj he
      obtain ⟨hy, -⟩ := mem_rowCells.1 h1
      obtain ⟨r, c, hr, -, -, hy', -⟩ := mem_spriteCells.1 h2
      have : y.val = oy % 32 := by rw [hy]; rfl
      omega

/-! ## The drawing operation -/

theorem State.covers_iff (s : State) (ox oy : Byte) (n : Nat) (y : Fin 32) (x : Fin 64) :
    s.Covers ox oy n y x ↔ (y, x) ∈ spriteCells ox.toNat oy.toNat (s.readBytes s.idx.toNat n) := by
  rw [mem_spriteCells]
  constructor
  · rintro ⟨r, c, hr, hc, hx, hy, hb⟩
    exact ⟨r, c, by simpa using hr, hc, hx, hy, by simpa [spriteBit] using hb⟩
  · rintro ⟨r, c, hr, hc, hx, hy, hb⟩
    exact ⟨r, c, by simpa using hr, hc, hx, hy, by simpa [spriteBit] using hb⟩

/-- Drawing inverts the covered cells (R134). -/
theorem State.get_drawSprite (s : State) (ox oy : Byte) {n : Nat} (hn : n ≤ 32) (y : Fin 32) (x : Fin 64) :
    Screen.get (s.drawSprite ox oy (s.readBytes s.idx.toNat n)).fb y x = true ↔
      (Screen.get s.fb y x = true ↔ ¬s.Covers ox oy n y x) := by
  show Screen.get (drawRows ox.toNat oy.toNat _ (s.fb, false)).1 y x = true ↔ _
  rw [drawRows_eq_plots, get_plots _ (nodup_spriteCells _ _ (by simpa using hn)), State.covers_iff]
  cases Screen.get s.fb y x <;> simp

/-- Drawing sets the flag exactly when a covered cell was on (R134, R136). -/
theorem State.flag_drawSprite (s : State) (ox oy : Byte) (n : Nat) (r : Reg) :
    (s.drawSprite ox oy (s.readBytes s.idx.toNat n)).reg r =
      if r = 15 then
        flagByte (drawRows ox.toNat oy.toNat (s.readBytes s.idx.toNat n) (s.fb, false)).2
      else s.reg r :=
  State.reg_setReg _ _ _ _

theorem State.hit_drawSprite (s : State) (ox oy : Byte) {n : Nat} (hn : n ≤ 32) :
    (drawRows ox.toNat oy.toNat (s.readBytes s.idx.toNat n) (s.fb, false)).2 = true ↔
      ∃ y x, s.Covers ox oy n y x ∧ Screen.get s.fb y x = true := by
  rw [drawRows_eq_plots, hit_plots _ (nodup_spriteCells _ _ (by simpa using hn))]
  constructor
  · rintro (h | ⟨⟨y, x⟩, hc, hg⟩)
    · exact absurd h (by simp)
    · exact ⟨y, x, (State.covers_iff ..).2 hc, hg⟩
  · rintro ⟨y, x, hc, hg⟩
    exact .inr ⟨(y, x), (State.covers_iff ..).1 hc, hg⟩

/-- Drawing changes the framebuffer and the registers alone. -/
theorem State.drawSprite_only (s : State) (ox oy : Byte) (bs : List Byte) :
    s.drawSprite ox oy bs = { s with fb := (s.drawSprite ox oy bs).fb, x := (s.drawSprite ox oy bs).x } := rfl

end Sys2Proof.Machine
end

