-- ==== Sys2Proof/Laws/Events.lean ====
section
/-! SUPPORT. What each event handler can do, said once (spec/46_key_input.md, spec/60_exceptions.md R181, spec/70_reset_and_hazards.md). -/

namespace Sys2Proof.Machine

variable (s : State)

/-! ## KEY -/

/-- A press event resumes a wait and does nothing in any other status (R146). -/
theorem State.pressEvent_waiting {r : Reg} (k : Key) (h : s.status = .waitingForKey r) :
    s.pressEvent k = { s.setReg r (zextKey k) with pc := s.pc + 2, status := .executing } := by
  simp only [State.pressEvent, h]

theorem State.pressEvent_other (k : Key) (h : ∀ r, s.status ≠ .waitingForKey r) : s.pressEvent k = s := by
  unfold State.pressEvent
  split
  · rename_i r hr
    exact absurd hr (h r)
  · rfl
  · rfl

/-- A latch update that is a press of a released key while waiting resumes; any other only sets the latch bit (R144 to R146). -/
theorem State.latch_resumes {r : Reg} {k : Key} (hs : s.status = .waitingForKey r) (hk : s.keyDown k = false) :
    s.latch k true = { (s.setKey k true).setReg r (zextKey k) with pc := s.pc + 2, status := .executing } := by
  unfold State.latch
  rw [if_pos (by simp [hk]), State.pressEvent_waiting (s.setKey k true) k (r := r) hs]
  rfl

theorem State.latch_only_key {k : Key} {p : Bool} (h : (∀ r, s.status ≠ .waitingForKey r) ∨ p = false ∨ s.keyDown k = true) :
    s.latch k p = s.setKey k p := by
  unfold State.latch
  split
  · rename_i hp
    rcases h with h | h | h
    · exact State.pressEvent_other _ k h
    · simp [h] at hp
    · simp [h] at hp
  · rfl

/-- Whatever a latch update does, it leaves all but `key`, `x`, `pc` and `status` as it was. -/
theorem State.latch_only (k : Key) (p : Bool) :
    s.latch k p =
      { s with key := (s.latch k p).key, x := (s.latch k p).x, pc := (s.latch k p).pc, status := (s.latch k p).status } := by
  unfold State.latch State.pressEvent
  split
  · split <;> rfl
  · rfl

@[simp] theorem State.latch_key (k : Key) (p : Bool) : (s.latch k p).key = s.key.set k.toNat p := by
  unfold State.latch State.pressEvent
  split
  · split <;> rfl
  · rfl

/-- KEY while Running with a valid index is the latch update (R143). -/
theorem State.keyEvent_valid (k : Key) (p : Bool) (hm : s.mode = .running) : s.keyEvent (k.toNat : Int) p = s.latch k p := by
  have hk := k.isLt
  unfold State.keyEvent
  rw [hm]
  show (if _ then _ else _) = _
  rw [if_neg (by omega)]
  congr 1
  simp

/-! ## TICK -/

/-- A timer counts one down and stops at zero (R181). -/
theorem toNat_countDown (b : Byte) : (countDown b).toNat = b.toNat - 1 := by
  unfold countDown
  split
  · rename_i h
    subst h
    rfl
  · rename_i h
    have hb := b.isLt
    have h0 : b.toNat ≠ 0 := fun e => h (BitVec.eq_of_toNat_eq e)
    rw [BitVec.toNat_sub]
    show (2 ^ 8 - 1 + b.toNat) % 2 ^ 8 = _
    omega

theorem State.tick_running (hm : s.mode = .running) :
    s.tick =
      { s with dt := countDown s.dt, st := countDown s.st, out := s.out ++ soundEdges s.st (countDown s.st) } := by
  unfold State.tick
  rw [hm]
  simp only [State.setSt, ← hm]

/-! ## LOAD and RESET_REQ -/

/-- A font cell that survives an initialising event reads as before (R206, R209). -/
theorem State.readByte_fontCells {t : State} {a : Nat} (hm : Memory.listed t.mem a = Memory.listed s.mem a) (hc : t.cfg = s.cfg)
    (ha : a < fontSize) : t.readByte a = s.readByte a := by
  unfold State.readByte State.unwritten
  rw [hm, hc, Vector.getElem?_eq_getElem ha]
  rfl

theorem State.load_running (image : List Byte) (hm : s.mode = .running) : s.load image = s := by
  simp only [State.load, hm]

theorem State.load_oversize (image : List Byte) (hm : s.mode = .launcher) (h : maxImage < image.length) :
    s.load image = s.emit .loadErrorOversize := by
  unfold State.load
  rw [hm]
  exact if_pos h

theorem State.load_accepted (image : List Byte) (hm : s.mode = .launcher) (h : image.length ≤ maxImage) :
    s.load image =
      { s.clearRun with
        mem := Memory.fontCells s.mem ++ imageCells loadBase image
        progEnd := loadBase + image.length
        mode := .running } := by
  unfold State.load
  rw [hm]
  exact if_neg (by omega)

theorem State.resetRequest_running (hm : s.mode = .running) :
    s.resetRequest = { s.clearRun with progEnd := loadBase, mode := .launcher } := by
  unfold State.resetRequest
  rw [hm]

theorem State.resetRequest_launcher (hm : s.mode = .launcher) : s.resetRequest = s := by
  unfold State.resetRequest
  rw [hm]

end Sys2Proof.Machine
end

