-- ==== Sys2Proof/Laws/Exec.lean ====
section
/-! SUPPORT. What an instruction, and what a CYCLE, can do to the state, said once for later proofs to cite. -/

namespace Sys2Proof.Machine

variable (s : State)

/-- The range check can do two things: take the fault, or go on within the address space (R57). -/
theorem State.checkLast_cases {last : Nat} {go : Result} {t : State} (h : s.checkLast last go = .next t) :
    t = { s with status := .halted (.addressOutOfRange last) } ∨ (last ≤ 4095 ∧ go = .next t) := by
  by_cases hl : last ≤ 4095
  · rw [State.checkLast_of_le s go hl] at h
    exact .inr ⟨hl, h⟩
  · rw [State.checkLast_of_gt s go (by omega)] at h
    cases h
    exact .inl rfl

/-- What an instruction that completes leaves, its results bounded as far as the invariants need it: the fields it may change, and the
registers it may not. -/
def Effect (s t : State) : Instr → Prop
  | .cls => t = { s with fb := t.fb }
  | .ret => 0 < s.sp.val ∧ t.sp.val + 1 = s.sp.val ∧ (∀ _ : s.sp.val - 1 < 16, t.pc = s.stk[s.sp.val - 1]) ∧
      t = { s with pc := t.pc, sp := t.sp }
  | .jp _ | .jpV0 _ => t.pc.toNat ≤ 4095 ∧ t = { s with pc := t.pc }
  | .call _ => t.pc.toNat ≤ 4095 ∧ t.sp.val = s.sp.val + 1 ∧
      (∀ (j : Nat) (_ : j < 16), t.stk[j] = if j = s.sp.val then s.pc else s.stk[j]) ∧
      t = { s with pc := t.pc, sp := t.sp, stk := t.stk }
  | .seImm _ _ | .sneImm _ _ | .seReg _ _ | .sneReg _ _ | .skp _ | .sknp _ =>
      (t.pc = s.pc ∨ t.pc = s.pc + 2) ∧ t = { s with pc := t.pc }
  | .ldI _ | .addI _ | .ldF _ => t.idx.toNat ≤ 4095 ∧ t = { s with idx := t.idx }
  | .rnd x _ => (∀ r, r ≠ x → t.reg r = s.reg r) ∧ t = { s with x := t.x, draws := t.draws }
  | .drw _ _ _ => (∀ r, r ≠ 15 → t.reg r = s.reg r) ∧ t = { s with fb := t.fb, x := t.x }
  | .ldDtVx _ => t = { s with dt := t.dt }
  | .ldStVx x => t = s.setSt (s.reg x)
  | .ldVxK x => t = { s with pc := s.pc - 2, status := .waitingForKey x }
  | .ldB _ | .storeRegs _ =>
      (Memory.wf s.cfg.font s.mem → Memory.wf s.cfg.font t.mem) ∧ t = { s with mem := t.mem }
  | .loadRegs x => (∀ r : Reg, x.toNat < r.toNat → t.reg r = s.reg r) ∧ t = { s with x := t.x }
  | .ldImm x _ | .addImm x _ | .ldReg x _ | .orReg x _ | .andReg x _ | .xorReg x _ | .ldVxDt x =>
      (∀ r, r ≠ x → t.reg r = s.reg r) ∧ t = { s with x := t.x }
  | .addReg x _ | .subReg x _ | .shr x _ | .subnReg x _ | .shl x _ =>
      (∀ r, r ≠ x → r ≠ 15 → t.reg r = s.reg r) ∧ t = { s with x := t.x }

/-- An instruction halts and changes nothing but `status`, or it completes with its effect. -/
theorem exec_cases {i : Instr} {s t : State} (h : exec i s = .next t) :
    (∃ hl, t = { s with status := .halted hl }) ∨ Effect s t i := by
  cases i
  case call nnn =>
    simp only [exec, execCall] at h
    rcases s.push_spec s.pc with ⟨h1, h2⟩ | ⟨h1, h2⟩ <;> rw [h2] at h
    · cases h; exact .inl ⟨_, rfl⟩
    · cases h; right
      refine ⟨?_, rfl, fun j h => ?_, rfl⟩
      · simp [zextImm]; omega
      · simp [Vector.getElem_set, eq_comm]
  case ret =>
    simp only [exec, execRet] at h
    rcases s.pop_spec with ⟨h1, h2⟩ | ⟨h1, h2⟩ <;> rw [h2] at h
    · cases h; exact .inl ⟨_, rfl⟩
    · cases h; right
      exact ⟨h1, by simp; omega, fun _ => rfl, rfl⟩
  case jpV0 nnn =>
    simp only [exec, execJpV0, memSize] at h
    split at h
    · cases h; exact .inl ⟨_, rfl⟩
    · cases h; right; refine ⟨?_, rfl⟩; simp at *; omega
  case drw x y n =>
    simp only [exec, execDrw] at h
    split at h
    · cases h; right
      exact ⟨fun r hr => by rw [State.flag_drawSprite, if_neg hr], State.drawSprite_only ..⟩
    · rcases s.checkLast_cases h with h | ⟨hl, h⟩
      · exact .inl ⟨_, h⟩
      · cases h; right
        exact ⟨fun r hr => by rw [State.flag_drawSprite, if_neg hr], State.drawSprite_only ..⟩
  case ldB x =>
    rcases s.checkLast_cases h with h | ⟨hl, h⟩
    · exact .inl ⟨_, h⟩
    · cases h; right
      simp only [State.lastAddr] at hl
      exact ⟨State.writeBytes_wf s _ _ (by simp [bcdDigits, memSize]; omega), State.writeBytes_only_mem ..⟩
  case storeRegs x =>
    rcases s.checkLast_cases h with h | ⟨hl, h⟩
    · exact .inl ⟨_, h⟩
    · cases h; right
      simp only [State.lastAddr, regCount] at hl
      exact ⟨State.writeBytes_wf s _ _ (by simp [memSize, regCount]; omega), State.writeBytes_only_mem ..⟩
  case loadRegs x =>
    have := x.isLt
    rcases s.checkLast_cases h with h | ⟨hl, h⟩
    · exact .inl ⟨_, h⟩
    · cases h; right
      simp only [State.lastAddr, regCount] at hl
      refine ⟨fun r hr => ?_, State.setRegs_only_x ..⟩
      rw [State.reg_setRegs _ _ _ _ (by simp [regCount]; omega), if_pos (by omega), List.getElem?_eq_none (by simp [regCount]; omega)]; rfl
  case skp x =>
    simp only [exec, execSkp, State.keyTest] at h
    split at h
    · cases h; exact .inl ⟨_, rfl⟩
    · cases h; right
      exact ⟨by rw [State.skipIf_pc]; split <;> simp, State.skipIf_only_pc ..⟩
  case sknp x =>
    simp only [exec, execSknp, State.keyTest] at h
    split at h
    · cases h; exact .inl ⟨_, rfl⟩
    · cases h; right
      exact ⟨by rw [State.skipIf_pc]; split <;> simp, State.skipIf_only_pc ..⟩
  case addI x =>
    cases h; right
    refine ⟨?_, rfl⟩
    simp only [BitVec.toNat_and]
    exact Nat.and_le_right
  case ldI nnn => cases h; right; exact ⟨by simp [zextImm]; omega, rfl⟩
  case ldF x => cases h; right; have := (s.reg x).isLt; exact ⟨by simp [zextByte]; exact (Nat.mod_le _ _).trans (by omega), rfl⟩
  case jp nnn => cases h; right; exact ⟨by simp [zextImm]; omega, rfl⟩
  case cls => cases h; exact .inr rfl
  case ldDtVx x => cases h; exact .inr rfl
  case ldStVx x => cases h; exact .inr rfl
  case ldVxK x => cases h; exact .inr rfl
  case rnd x nn => cases h; right; exact ⟨fun r hr => by simp [hr]; rfl, rfl⟩
  case seImm => cases h; right; exact ⟨by rw [State.skipIf_pc]; split <;> simp, State.skipIf_only_pc ..⟩
  case sneImm => cases h; right; exact ⟨by rw [State.skipIf_pc]; split <;> simp, State.skipIf_only_pc ..⟩
  case seReg => cases h; right; exact ⟨by rw [State.skipIf_pc]; split <;> simp, State.skipIf_only_pc ..⟩
  case sneReg => cases h; right; exact ⟨by rw [State.skipIf_pc]; split <;> simp, State.skipIf_only_pc ..⟩
  case ldImm => cases h; right; exact ⟨fun r hr => by simp [hr], rfl⟩
  case addImm => cases h; right; exact ⟨fun r hr => by simp [hr], rfl⟩
  case ldReg => cases h; right; exact ⟨fun r hr => by simp [hr], rfl⟩
  case orReg => cases h; right; exact ⟨fun r hr => by simp [hr], rfl⟩
  case andReg => cases h; right; exact ⟨fun r hr => by simp [hr], rfl⟩
  case xorReg => cases h; right; exact ⟨fun r hr => by simp [hr], rfl⟩
  case ldVxDt => cases h; right; exact ⟨fun r hr => by simp [hr], rfl⟩
  all_goals
    cases h; right
    refine ⟨fun r hr h15 => ?_, State.setResult_only_x ..⟩
    rw [(State.setResult_spec ..).1, if_neg (by tauto), if_neg hr]

/-- A CYCLE does nothing; or, in a Running and Executing state, halts with `pc` where it was, or reads a word below the end of the
program and, with `pc` past it, halts or runs the instruction it decodes to. -/
theorem handle_cycle_cases {s t : State} (h : handle .cycle s = .next t) :
    t = s ∨
      (s.mode = .running ∧ s.status = .executing ∧
        ((∃ hl, t = { s with status := .halted hl }) ∨
          (s.pc.toNat < s.progEnd ∧ s.pc.toNat ≤ 4094 ∧
            ((∃ hl, t = { s with pc := s.pc + 2, status := .halted hl }) ∨
              ∃ i, decodeWord (s.wordAt s.pc.toNat) = .ok i ∧ exec i { s with pc := s.pc + 2 } = .next t)))) := by
  simp only [handle, cycle] at h
  split at h
  · rename_i hg
    right; refine ⟨hg.1, hg.2, ?_⟩
    unfold stepEngine at h
    split at h
    · cases h; exact .inl ⟨_, rfl⟩
    · rename_i hp
      by_cases h4 : s.pc.toNat ≤ 4094
      · rw [State.memRead2_of_lt s h4] at h
        right; refine ⟨by omega, h4, ?_⟩
        simp only [runWord] at h
        split at h
        · rename_i i hi; exact .inr ⟨i, hi, h⟩
        · cases h; exact .inl ⟨_, rfl⟩
      · left
        by_cases h5 : s.pc.toNat = 4095
        · rw [h5, State.memRead2_last] at h; cases h; exact ⟨_, rfl⟩
        · rw [State.memRead2_of_gt s (by omega)] at h; cases h; exact ⟨_, rfl⟩
  · cases h; exact .inl rfl

end Sys2Proof.Machine
end

