-- ==== Sys2Proof/Laws/PerInstr.lean ====
section
/-! SUPPORT. The statement made of every instruction as syntax: its encoding lies in its own row of the opcode table. -/

namespace Sys2Proof.Laws

/-- The word of an instruction matches the row of the opcode table the instruction stands for: `word & mask = match` (R75, R82). -/
def TableRow.Statement (i : Instr) : Prop := (rowOf i).accepts (encode i) = true

theorem TableRow.cls : TableRow.Statement .cls := rfl
theorem TableRow.ret : TableRow.Statement .ret := rfl
theorem TableRow.jp (nnn : Imm12) : TableRow.Statement (.jp nnn) := beq_of_eq (accepts_formatNNN 0x1 nnn)
theorem TableRow.call (nnn : Imm12) : TableRow.Statement (.call nnn) := beq_of_eq (accepts_formatNNN 0x2 nnn)
theorem TableRow.seImm (x : Reg) (nn : Byte) : TableRow.Statement (.seImm x nn) := beq_of_eq (accepts_formatXNN 0x3 x nn)
theorem TableRow.sneImm (x : Reg) (nn : Byte) : TableRow.Statement (.sneImm x nn) := beq_of_eq (accepts_formatXNN 0x4 x nn)
theorem TableRow.seReg (x y : Reg) : TableRow.Statement (.seReg x y) := beq_of_eq (accepts_formatXY 0x5 x y 0x0)
theorem TableRow.ldImm (x : Reg) (nn : Byte) : TableRow.Statement (.ldImm x nn) := beq_of_eq (accepts_formatXNN 0x6 x nn)
theorem TableRow.addImm (x : Reg) (nn : Byte) : TableRow.Statement (.addImm x nn) := beq_of_eq (accepts_formatXNN 0x7 x nn)
theorem TableRow.ldReg (x y : Reg) : TableRow.Statement (.ldReg x y) := beq_of_eq (accepts_formatXY 0x8 x y 0x0)
theorem TableRow.orReg (x y : Reg) : TableRow.Statement (.orReg x y) := beq_of_eq (accepts_formatXY 0x8 x y 0x1)
theorem TableRow.andReg (x y : Reg) : TableRow.Statement (.andReg x y) := beq_of_eq (accepts_formatXY 0x8 x y 0x2)
theorem TableRow.xorReg (x y : Reg) : TableRow.Statement (.xorReg x y) := beq_of_eq (accepts_formatXY 0x8 x y 0x3)
theorem TableRow.addReg (x y : Reg) : TableRow.Statement (.addReg x y) := beq_of_eq (accepts_formatXY 0x8 x y 0x4)
theorem TableRow.subReg (x y : Reg) : TableRow.Statement (.subReg x y) := beq_of_eq (accepts_formatXY 0x8 x y 0x5)
theorem TableRow.shr (x y : Reg) : TableRow.Statement (.shr x y) := beq_of_eq (accepts_formatXY 0x8 x y 0x6)
theorem TableRow.subnReg (x y : Reg) : TableRow.Statement (.subnReg x y) := beq_of_eq (accepts_formatXY 0x8 x y 0x7)
theorem TableRow.shl (x y : Reg) : TableRow.Statement (.shl x y) := beq_of_eq (accepts_formatXY 0x8 x y 0xE)
theorem TableRow.sneReg (x y : Reg) : TableRow.Statement (.sneReg x y) := beq_of_eq (accepts_formatXY 0x9 x y 0x0)
theorem TableRow.ldI (nnn : Imm12) : TableRow.Statement (.ldI nnn) := beq_of_eq (accepts_formatNNN 0xA nnn)
theorem TableRow.jpV0 (nnn : Imm12) : TableRow.Statement (.jpV0 nnn) := beq_of_eq (accepts_formatNNN 0xB nnn)
theorem TableRow.rnd (x : Reg) (nn : Byte) : TableRow.Statement (.rnd x nn) := beq_of_eq (accepts_formatXNN 0xC x nn)
theorem TableRow.drw (x y : Reg) (n : Nibble) : TableRow.Statement (.drw x y n) := beq_of_eq (accepts_formatXYN 0xD x y n)
theorem TableRow.skp (x : Reg) : TableRow.Statement (.skp x) := beq_of_eq (accepts_formatX 0xE x 0x9E)
theorem TableRow.sknp (x : Reg) : TableRow.Statement (.sknp x) := beq_of_eq (accepts_formatX 0xE x 0xA1)
theorem TableRow.ldVxDt (x : Reg) : TableRow.Statement (.ldVxDt x) := beq_of_eq (accepts_formatX 0xF x 0x07)
theorem TableRow.ldVxK (x : Reg) : TableRow.Statement (.ldVxK x) := beq_of_eq (accepts_formatX 0xF x 0x0A)
theorem TableRow.ldDtVx (x : Reg) : TableRow.Statement (.ldDtVx x) := beq_of_eq (accepts_formatX 0xF x 0x15)
theorem TableRow.ldStVx (x : Reg) : TableRow.Statement (.ldStVx x) := beq_of_eq (accepts_formatX 0xF x 0x18)
theorem TableRow.addI (x : Reg) : TableRow.Statement (.addI x) := beq_of_eq (accepts_formatX 0xF x 0x1E)
theorem TableRow.ldF (x : Reg) : TableRow.Statement (.ldF x) := beq_of_eq (accepts_formatX 0xF x 0x29)
theorem TableRow.ldB (x : Reg) : TableRow.Statement (.ldB x) := beq_of_eq (accepts_formatX 0xF x 0x33)
theorem TableRow.storeRegs (x : Reg) : TableRow.Statement (.storeRegs x) := beq_of_eq (accepts_formatX 0xF x 0x55)
theorem TableRow.loadRegs (x : Reg) : TableRow.Statement (.loadRegs x) := beq_of_eq (accepts_formatX 0xF x 0x65)

end Sys2Proof.Laws
end

