-- ==== Sys2Proof/Tests/Slice0.lean ====
section
/-! SUPPORT. Tests of the model. Words and expected results are those of spec/30_encoding.md R75 and spec/95_test_vectors.md (V1 to
V157); where the vectors give none, they are worked out by hand from the rule named. Then the witnesses: for every statement of
Certificates/Slice0/Obligations.lean with hypotheses, states and operands that meet them. -/

namespace Sys2Proof.Tests

open Sys2Proof.Machine

/-! ## Well-formedness -/

/-- One illegal word of each line of R77, and its neighbours: refused by the table and by the decoder. -/
theorem test_illegal_words :
    [0x0000, 0x00E1, 0x01E0, 0x5AB1, 0x8008, 0x800F, 0x9AB5, 0xE09F, 0xE000, 0xF000, 0xF075, 0xFFFF].all
      (fun w => !legalWord (BitVec.ofNat 16 w) && decodeWord (BitVec.ofNat 16 w) == .error (.illegalOpcode (BitVec.ofNat 16 w)))
        = true := by decide

/-- An instruction is two bytes: one is too short (R70). -/
theorem test_decode_short : decode [] = .error .tooShort ∧ decode [0x60] = .error .tooShort := by decide

/-- The table has 34 rows (R75) and no two are alike. -/
theorem test_table_rows : opcodeTable.length = 34 ∧ opcodeTable.Nodup := by decide

/-- Memories that are not in canonical form: out of order, an address twice, an address outside the space, a font cell listed with the
byte it holds unlisted. -/
theorem test_memory_ill_formed :
    ¬Memory.wf standardFont [(0x301, 1), (0x300, 1)] ∧ ¬Memory.wf standardFont [(0x300, 1), (0x300, 2)] ∧
    ¬Memory.wf standardFont [(0x1000, 1)] ∧ ¬Memory.wf standardFont [(0x000, 0xF0)] ∧
    Memory.wf standardFont [(0x000, 0xF1), (0x300, 0), (0xFFF, 1)] := by decide

/-! ## Decoding: every constructor from a word of R75 -/

theorem test_decode_control :
    decodeWord 0x00EE = .ok .ret ∧ decodeWord 0x1ABC = .ok (.jp 0xABC) ∧ decodeWord 0x2DEF = .ok (.call 0xDEF) ∧
    decodeWord 0x3A42 = .ok (.seImm 0xA 0x42) ∧ decodeWord 0x4B17 = .ok (.sneImm 0xB 0x17) ∧
    decodeWord 0x5AB0 = .ok (.seReg 0xA 0xB) ∧ decodeWord 0x9CD0 = .ok (.sneReg 0xC 0xD) := by decide

theorem test_decode_arithmetic :
    decodeWord 0x6FAB = .ok (.ldImm 0xF 0xAB) ∧ decodeWord 0x70FF = .ok (.addImm 0x0 0xFF) ∧
    decodeWord 0x8120 = .ok (.ldReg 0x1 0x2) ∧ decodeWord 0x8231 = .ok (.orReg 0x2 0x3) ∧
    decodeWord 0x8342 = .ok (.andReg 0x3 0x4) ∧ decodeWord 0x8453 = .ok (.xorReg 0x4 0x5) ∧
    decodeWord 0x8AB4 = .ok (.addReg 0xA 0xB) ∧ decodeWord 0x8675 = .ok (.subReg 0x6 0x7) ∧
    decodeWord 0x84A6 = .ok (.shr 0x4 0xA) ∧ decodeWord 0x8897 = .ok (.subnReg 0x8 0x9) ∧
    decodeWord 0x8F1E = .ok (.shl 0xF 0x1) := by decide

theorem test_decode_index_random_display :
    decodeWord 0xAFFF = .ok (.ldI 0xFFF) ∧ decodeWord 0xB300 = .ok (.jpV0 0x300) ∧ decodeWord 0xF21E = .ok (.addI 0x2) ∧
    decodeWord 0xC10F = .ok (.rnd 0x1 0x0F) ∧ decodeWord 0x00E0 = .ok .cls ∧ decodeWord 0xD12F = .ok (.drw 0x1 0x2 0xF) ∧
    decodeWord 0xE59E = .ok (.skp 0x5) ∧ decodeWord 0xE6A1 = .ok (.sknp 0x6) := by decide

theorem test_decode_timer_memory :
    decodeWord 0xF207 = .ok (.ldVxDt 0x2) ∧ decodeWord 0xF50A = .ok (.ldVxK 0x5) ∧ decodeWord 0xF315 = .ok (.ldDtVx 0x3) ∧
    decodeWord 0xF118 = .ok (.ldStVx 0x1) ∧ decodeWord 0xF029 = .ok (.ldF 0x0) ∧ decodeWord 0xF533 = .ok (.ldB 0x5) ∧
    decodeWord 0xFE55 = .ok (.storeRegs 0xE) ∧ decodeWord 0xF165 = .ok (.loadRegs 0x1) := by decide

/-- The bytes lie high byte first (R54), and the encoder gives back S1's words. -/
theorem test_encode :
    encodeBytes (.addReg 0xA 0xB) = [0x8A, 0xB4] ∧ encode (.drw 0x1 0x2 0xF) = 0xD12F ∧ encode (.shr 0x4 0xA) = 0x84A6 ∧
    encode (.ldB 0x5) = 0xF533 ∧ encode .ret = 0x00EE := by decide

/-! ## One step of each instruction -/

/-- The start of the vectors: a program of 3584 bytes is loaded and runs. -/
def start : State := { State.reset with mode := .running, progEnd := 0x1000 }

/-- The start with bytes in memory at an address. -/
def withBytes (a : Nat) (bs : List Byte) : State := start.writeBytes a bs

/-- The start with values in the first registers. -/
def withRegs (bs : List Byte) : State := start.setRegs 0 bs

/-- What holds after the next step when the word at `pc` is `w`. -/
def afterWord (w : Word) (s : State) (p : State → Bool) : Bool :=
  match step (s.placeWord w) with
  | .next t => p t
  | .fault _ => false
  | .refused _ => false

/-- What holds after an event. -/
def afterHandle (e : Event) (s : State) (p : State → Bool) : Bool :=
  match handle e s with
  | .next t => p t
  | .fault _ => false
  | .refused _ => false

/-- `pc` and `status` after a step. -/
def haltedWith (h : Halt) (pc : Word) (t : State) : Bool := t.status == .halted h && t.pc == pc

theorem test_jp : afterWord 0x1ABC start (fun t => t.pc == 0xABC) = true := by decide

theorem test_call :
    afterWord 0x2ABC { start with sp := 15 } (fun t => t.stk[15] == 0x202 && t.sp == 16 && t.pc == 0xABC) = true := by decide

theorem test_call_overflow :
    afterWord 0x2ABC { start with sp := 16 } (fun t => haltedWith (.stackOverflow 0x200) 0x202 t && t.sp == 16) = true := by decide

theorem test_ret :
    afterWord 0x00EE { start with sp := 2, stk := (start.stk.set 0 0x202).set 1 0x345 } (fun t => t.sp == 1 && t.pc == 0x345)
      = true := by decide

theorem test_ret_underflow : afterWord 0x00EE start (haltedWith (.stackUnderflow 0x200) 0x202) = true := by decide

theorem test_se_imm :
    afterWord 0x3A42 (start.setReg 10 0x42) (fun t => t.pc == 0x204) = true ∧
    afterWord 0x3A42 (start.setReg 10 0x43) (fun t => t.pc == 0x202) = true := by decide

theorem test_sne_imm :
    afterWord 0x4A42 (start.setReg 10 0x42) (fun t => t.pc == 0x202) = true ∧
    afterWord 0x4A42 (start.setReg 10 0x43) (fun t => t.pc == 0x204) = true := by decide

theorem test_se_reg :
    afterWord 0x5AB0 ((start.setReg 10 1).setReg 11 1) (fun t => t.pc == 0x204) = true ∧
    afterWord 0x5AB0 ((start.setReg 10 1).setReg 11 2) (fun t => t.pc == 0x202) = true := by decide

theorem test_sne_reg :
    afterWord 0x9AB0 ((start.setReg 10 1).setReg 11 2) (fun t => t.pc == 0x204) = true ∧
    afterWord 0x9AA0 (start.setReg 10 1) (fun t => t.pc == 0x202) = true := by decide

/-- V17: a skip at 0xFFE leaves 0x1002. -/
theorem test_skip_past_the_end : afterWord 0x3000 { start with pc := 0xFFE } (fun t => t.pc == 0x1002) = true := by decide

theorem test_ld_imm : afterWord 0x6FAB start (fun t => t.reg 15 == 0xAB && t.pc == 0x202) = true := by decide

theorem test_add_imm :
    afterWord 0x70FF ((withRegs [2]).setReg 15 7) (fun t => t.reg 0 == 1 && t.reg 15 == 7) = true := by decide

theorem test_ld_reg : afterWord 0x8F00 (withRegs [0x99]) (fun t => t.reg 15 == 0x99) = true := by decide

theorem test_or : afterWord 0x8011 ((withRegs [0x55, 0xAA]).setReg 15 7) (fun t => t.reg 0 == 0xFF && t.reg 15 == 7) = true := by decide

theorem test_and : afterWord 0x8012 ((withRegs [0x55, 0xAA]).setReg 15 7) (fun t => t.reg 0 == 0 && t.reg 15 == 7) = true := by decide

theorem test_xor : afterWord 0x8003 ((withRegs [0x5A]).setReg 15 7) (fun t => t.reg 0 == 0 && t.reg 15 == 7) = true := by decide

theorem test_add : afterWord 0x8014 (withRegs [0xFF, 0xFF]) (fun t => t.reg 0 == 0xFE && t.reg 15 == 1) = true := by decide

/-- V31: the old `x[15]` is the operand, then the flag. -/
theorem test_add_flag_operand : afterWord 0x80F4 ((withRegs [0x10]).setReg 15 7) (fun t => t.reg 0 == 0x17 && t.reg 15 == 0) = true := by
  decide

/-- V36 under each value of VF_ORDER. -/
theorem test_sub_into_flag :
    afterWord 0x8F15 ((withRegs [0, 3]).setReg 15 9) (fun t => t.reg 15 == 1) = true ∧
    afterWord 0x8F15 { (withRegs [0, 3]).setReg 15 9 with cfg := { recommendedConfig with vfOrder := .resultLast } }
      (fun t => t.reg 15 == 6) = true := by decide

theorem test_sub : afterWord 0x8015 (withRegs [0, 1]) (fun t => t.reg 0 == 0xFF && t.reg 15 == 0) = true := by decide

theorem test_shr :
    afterWord 0x8016 (withRegs [0xFF, 0x55]) (fun t => t.reg 0 == 0x7F && t.reg 1 == 0x55 && t.reg 15 == 1) = true := by decide

theorem test_subn : afterWord 0x8017 (withRegs [5, 3]) (fun t => t.reg 0 == 0xFE && t.reg 15 == 0) = true := by decide

theorem test_shl :
    afterWord 0x801E (withRegs [0xFF, 0x01]) (fun t => t.reg 0 == 0xFE && t.reg 1 == 0x01 && t.reg 15 == 1) = true := by decide

theorem test_ld_i : afterWord 0xAFFF start (fun t => t.idx == 0xFFF) = true := by decide

theorem test_add_i :
    afterWord 0xF01E { (withRegs [0xFF]).setReg 15 7 with idx := 0xFFF } (fun t => t.idx == 0x0FE && t.reg 15 == 7) = true := by decide

theorem test_jp_v0 : afterWord 0xB300 (withRegs [0xFF]) (fun t => t.pc == 0x3FF) = true := by decide

theorem test_jp_v0_range : afterWord 0xBF01 (withRegs [0xFF]) (haltedWith (.addressOutOfRange 0x1000) 0x202) = true := by decide

/-- V61: mask 0, whatever the draw. -/
theorem test_rnd_mask_zero : ∃ t, exec (.rnd 0 0) (withRegs [0xA7]) = .next t ∧ t.reg 0 = 0 :=
  ⟨_, rfl, by simp [State.reg, State.setReg]⟩

/-- R130: one draw, and nothing else but the destination and `pc`. -/
theorem test_rnd_counts : afterWord 0xC00F (withRegs [0xA7, 9]) (fun t => t.draws == 1 && t.reg 1 == 9 && t.pc == 0x202) = true := by decide

theorem test_cls :
    afterWord 0x00E0 { start.setReg 15 1 with fb := Screen.put start.fb 3 3 true } (fun t => !Screen.get t.fb 3 3 && t.reg 15 == 1)
      = true := by decide

/-- V70: the rightmost columns wrap to the left. -/
theorem test_drw_wraps :
    afterWord 0xD011 { (withBytes 0x300 [0xFF]).setReg 0 63 with idx := 0x300 }
      (fun t => Screen.get t.fb 0 63 && Screen.get t.fb 0 0 && Screen.get t.fb 0 6 && !Screen.get t.fb 0 7 && !Screen.get t.fb 0 62)
        = true := by decide

/-- V73: a cell that goes off is a collision. -/
theorem test_drw_collision :
    afterWord 0xD011
      { ((withBytes 0x300 [0xC0]).setReg 0 10).setReg 1 5 with idx := 0x300, fb := Screen.put Screen.clear 5 11 true }
      (fun t => Screen.get t.fb 5 10 && !Screen.get t.fb 5 11 && t.reg 15 == 1) = true := by decide

theorem test_skp :
    afterWord 0xE09E ((withRegs [0xF]).setKey 15 true) (fun t => t.pc == 0x204) = true ∧
    afterWord 0xE09E ((withRegs [0x10]).setKey 0 true) (haltedWith (.keyIndexOutOfRange 0x10) 0x202) = true := by decide

theorem test_sknp :
    afterWord 0xE0A1 (withRegs [3]) (fun t => t.pc == 0x204) = true ∧
    afterWord 0xE0A1 ((withRegs [3]).setKey 3 true) (fun t => t.pc == 0x202) = true := by decide

theorem test_ld_dt : afterWord 0xF207 { start with dt := 0x3C } (fun t => t.reg 2 == 0x3C && t.dt == 0x3C) = true := by decide

/-- V116: a key already held does not end the wait. -/
theorem test_ld_k :
    afterWord 0xFF0A (start.setKey 4 true) (fun t => t.status == .waitingForKey 15 && t.pc == 0x200 && t.reg 15 == 0) = true := by decide

theorem test_set_dt : afterWord 0xF215 (start.setReg 2 0xFF) (fun t => t.dt == 0xFF) = true := by decide

theorem test_set_st :
    afterWord 0xF118 { start with st := 5 } (fun t => t.st == 0 && t.out == [.soundOff]) = true ∧
    afterWord 0xF118 (start.setReg 1 1) (fun t => t.st == 1 && t.out == [.soundOn]) = true := by decide

theorem test_font :
    afterWord 0xF029 (withRegs [0xF]) (fun t => t.idx == 0x04B) = true ∧
    afterWord 0xF029 (withRegs [0xFF]) (fun t => t.idx == 0x4FB) = true := by decide

theorem test_bcd :
    afterWord 0xF033 { withRegs [109] with idx := 0xFFD } (fun t => t.readBytes 0xFFD 3 == [1, 0, 9]) = true := by decide

theorem test_bcd_range :
    afterWord 0xF033 { withRegs [109] with idx := 0xFFE } (haltedWith (.addressOutOfRange 0x1000) 0x202) = true := by decide

theorem test_store :
    afterWord 0xFF55 { (withRegs [1]).setReg 15 0xEE with idx := 0xFF0 }
      (fun t => t.readBytes 0xFF0 16 == [1] ++ List.replicate 14 0 ++ [0xEE] && t.idx == 0xFF0) = true := by decide

theorem test_store_range :
    afterWord 0xFF55 { withRegs [1] with idx := 0xFF1 }
      (fun t => haltedWith (.addressOutOfRange 0x1000) 0x202 t && Memory.listed t.mem 0xFF1 == none) = true := by decide

theorem test_load :
    afterWord 0xF165 { withBytes 0x400 [0xAA, 0xBB, 0xCC] with idx := 0x400 }
      (fun t => t.reg 0 == 0xAA && t.reg 1 == 0xBB && t.reg 2 == 0 && t.idx == 0x400) = true := by decide

/-! ## Cycle and events -/

/-- V140, V142, V143, V144: illegal word, fetch at 0xFFF, end of program. -/
theorem test_cycle_halts :
    afterWord 0x0000 start (haltedWith (.illegalOpcode 0x0000) 0x202) = true ∧
    afterHandle .cycle { start with pc := 0xFFF } (haltedWith (.addressOutOfRange 0x1000) 0xFFF) = true ∧
    afterHandle .cycle { start with pc := 0xFFF, progEnd := 0xFFF } (haltedWith (.endOfProgram 0xFFF) 0xFFF) = true ∧
    afterHandle .cycle { start with progEnd := 0x200 } (haltedWith (.endOfProgram 0x200) 0x200) = true := by decide

/-- V150, V152, V153. -/
theorem test_tick :
    afterHandle .tick { start with dt := 1, st := 1 } (fun t => t.dt == 0 && t.st == 0 && t.out == [.soundOff]) = true ∧
    afterHandle .tick { start with dt := 255 } (fun t => t.dt == 254 && t.out == []) = true ∧
    afterHandle .tick { start with dt := 3, status := .halted (.endOfProgram 0x200) } (fun t => t.dt == 2) = true := by decide

/-- V99: only a press of a released key ends the wait. -/
theorem test_key_wait :
    afterHandle (.key 4 true) { start.setKey 4 true with status := .waitingForKey 5 } (fun t => t.status == .waitingForKey 5) = true ∧
    afterHandle (.key 4 true) { start with status := .waitingForKey 5 }
      (fun t => t.status == .executing && t.reg 5 == 4 && t.pc == 0x202 && t.keyDown 4) = true := by decide

/-- V97, V98. -/
theorem test_key_ignored :
    afterHandle (.key 16 true) start (fun t => t.out == [.diagInvalidKeyIndex 16] && t.key == start.key) = true ∧
    afterHandle (.key 3 true) State.reset (fun t => t == State.reset) = true := by decide

/-- LOAD of two bytes starts a run at 0x200 (R204), and is a no-op in Running (V155). -/
theorem test_load_event :
    afterHandle (.load [0x61, 0x07]) State.reset
      (fun t => t.mode == .running && t.progEnd == 0x202 && t.pc == 0x200 && t.readBytes 0x200 2 == [0x61, 0x07]) = true ∧
    afterHandle (.load [0x61, 0x07]) (withRegs [5]) (fun t => t == withRegs [5]) = true := by decide

/-- V154: RESET_REQ with the tone on. -/
theorem test_reset_request :
    afterHandle .resetReq { withRegs [5] with st := 5, out := [.soundOn], pc := 0x204 }
      (fun t => t.mode == .launcher && t.reg 0 == 0 && t.st == 0 && t.out == [.soundOn, .soundOff] && t.pc == 0x200 && t.progEnd == 0x200)
        = true := by decide

/-- A second POWER_ON has no transition (R189). -/
theorem test_power_on_again : handle .powerOn start = .fault .powerOnAgain := rfl

/-- A table word, laid out and decoded, and run as the first instruction. -/
theorem test_table_word :
    decodeTableWord 16 0x6005 = some (.ldImm 0 5) ∧
    (match step (State.reset.withFetchWord 16 0x6005) with
      | .next t => t.reg 0 == 5 && t.pc == 0x202
      | .fault _ => false
      | .refused _ => false) = true := by decide

/-! ## Witnesses: the hypotheses of each statement of Obligations.lean are met, each clause at the ends of its range -/

theorem reset_inv : State.reset.Inv where
  idx_le := by decide
  pc_le := by decide
  progEnd_ge := by decide
  progEnd_le := by decide
  stk_le := fun j _ hj => absurd hj (Nat.not_lt_zero j)
  launcher := fun _ => by decide
  waiting := fun r hr => nomatch hr

theorem reset_soundInv : State.reset.SoundInv := rfl

theorem reset_memory_wf : Memory.wf State.reset.cfg.font State.reset.mem := by decide

theorem witness_decode_gives_an_instruction : decodeWord 0x8AB4 = .ok (.addReg 0xA 0xB) := by decide

theorem witness_row_accepts : rowOf (.addReg 0 0) ∈ opcodeTable ∧ (rowOf (.addReg 0 0)).accepts 0x8AB4 = true := by decide

theorem witness_events : ({ start with events := [.tick, .cycle] } : State).events = .tick :: [.cycle] ∧ start.events = [] :=
  ⟨rfl, rfl⟩

/-- The program's last word: `pc` = 4094, an instruction there. -/
def lastWord : State := { start with pc := 0xFFE }.placeWord 0x6005

theorem lastWord_reads : decodeWord (BitVec.ofNat 16 (256 * (lastWord.readByte 0xFFE).toNat + (lastWord.readByte (0xFFE + 1)).toNat)) =
    .ok (.ldImm 0 5) := by decide

theorem witness_step_runs :
    lastWord.Ready ∧ lastWord.pc.toNat < lastWord.progEnd ∧ lastWord.pc.toNat ≤ 4094 ∧
    decodeWord (BitVec.ofNat 16 (256 * (lastWord.readByte lastWord.pc.toNat).toNat + (lastWord.readByte (lastWord.pc.toNat + 1)).toNat)) =
      .ok (.ldImm 0 5) :=
  ⟨⟨rfl, rfl, rfl⟩, by decide, by decide, lastWord_reads⟩

theorem witness_cycle_gated :
    State.reset.mode ≠ .running ∧ ({ start with status := .waitingForKey 3 } : State).status ≠ .executing ∧
    ({ start with status := .halted (.endOfProgram 0x200) } : State).status ≠ .executing := by decide

theorem witness_end_of_program :
    let s : State := { start with progEnd := 0x200 }
    s.mode = .running ∧ s.status = .executing ∧ s.progEnd ≤ s.pc.toNat := by decide

theorem witness_fetch_last_address :
    let s : State := { start with pc := 0xFFF }
    s.mode = .running ∧ s.status = .executing ∧ s.pc.toNat < s.progEnd ∧ s.pc.toNat = 4095 := by decide

theorem witness_fetch :
    lastWord.mode = .running ∧ lastWord.status = .executing ∧ lastWord.pc.toNat < lastWord.progEnd ∧ lastWord.pc.toNat ≤ 4094 ∧
    (0x6005#16).toNat = 256 * (lastWord.readByte lastWord.pc.toNat).toNat + (lastWord.readByte (lastWord.pc.toNat + 1)).toNat ∧
    decodeWord 0x6005 = .ok (.ldImm 0 5) := by decide

theorem witness_illegal_word :
    let s := start.placeWord 0x5AB1
    s.mode = .running ∧ s.status = .executing ∧ s.pc.toNat < s.progEnd ∧ s.pc.toNat ≤ 4094 ∧
    (0x5AB1#16).toNat = 256 * (s.readByte s.pc.toNat).toNat + (s.readByte (s.pc.toNat + 1)).toNat ∧
    ∀ i, decodeWord 0x5AB1 ≠ .ok i :=
  ⟨rfl, rfl, by decide, by decide, by decide, fun i h => by
    rw [show decodeWord 0x5AB1 = .error (.illegalOpcode 0x5AB1) from by decide] at h
    cases h⟩

/-- The stack full, one short of full, empty, and with one entry. -/
theorem witness_stack :
    ({ start with sp := 16 } : State).sp.val = 16 ∧ ({ start with sp := 15 } : State).sp.val < 16 ∧ start.sp.val = 0 ∧
    0 < ({ start with sp := 1 } : State).sp.val ∧ 0 < ({ start with sp := 16 } : State).sp.val := by decide

theorem witness_low_nibble : (1 : Nibble) ≠ 0 ∧ (15 : Nibble) ≠ 0 := by decide

/-- A register other than the destination, and the flag register as one. -/
theorem witness_other_register : (1 : Reg) ≠ 0 ∧ (15 : Reg) ≠ 0 := by decide

theorem witness_vfOrder :
    start.cfg.vfOrder = .flagLast ∧
    ({ start with cfg := { recommendedConfig with vfOrder := .resultLast } } : State).cfg.vfOrder = .resultLast := by decide

/-- BNNN with the targets 4095 and 4096. -/
theorem witness_indexed_jump :
    (0xFFF#12).toNat + (start.reg 0).toNat = 4095 ∧ (0xF01#12).toNat + ((withRegs [0xFF]).reg 0).toNat = 4096 := by decide

/-- DXYN with the last sprite byte at 4095 and 4096, and of no bytes. -/
theorem witness_draw_range :
    ({ start with idx := 0xFFF } : State).idx.toNat + (1#4).toNat - 1 = 4095 ∧
    (1 ≤ (2#4).toNat ∧ 4095 < ({ start with idx := 0xFFF } : State).idx.toNat + (2#4).toNat - 1) ∧ (0#4).toNat = 0 := by decide

/-- The top left cell is covered by glyph 0 of the start's font drawn at (0, 0). -/
theorem glyph_covers : start.Covers (start.reg 0) (start.reg 1) (5#4).toNat 0 0 :=
  ⟨0, 0, by decide, by decide, by decide, by decide, by decide⟩

theorem witness_draw_hits :
    let s : State := { start with fb := Screen.put Screen.clear 0 0 true }
    ∃ v u, s.Covers (s.reg 0) (s.reg 1) (5#4).toNat v u ∧ Screen.get s.fb v u = true :=
  ⟨0, 0, glyph_covers, by decide⟩

theorem witness_draw_misses :
    ∀ v u, start.Covers (start.reg 0) (start.reg 1) (5#4).toNat v u → Screen.get start.fb v u = false := by
  intro v u _
  show (Vector.replicate 32 (Vector.replicate 64 false))[v.val][u.val] = false
  simp

theorem witness_draw_twice :
    (0 : Reg) ≠ 15 ∧ (1 : Reg) ≠ 15 ∧ start.idx.toNat + (5#4).toNat - 1 ≤ 4095 ∧
    (∃ v w, start.Covers (start.reg 0) (start.reg 1) (5#4).toNat v w) ∧
    (∀ v w, start.Covers (start.reg 0) (start.reg 1) (5#4).toNat v w → Screen.get start.fb v w = false) :=
  ⟨by decide, by decide, by decide, ⟨0, 0, glyph_covers⟩, witness_draw_misses⟩

/-- Key indexes 15 and 16. -/
theorem witness_key_tests : ((withRegs [15]).reg 0).toNat < 16 ∧ 15 < ((withRegs [16]).reg 0).toNat := by decide

theorem witness_key_resumes :
    let s : State := { start with status := .waitingForKey 5 }
    s.mode = .running ∧ s.status = .waitingForKey 5 ∧ s.keyDown 15 = false := by decide

/-- No press event: nothing waits, a release, a key already held. -/
theorem witness_key_latches :
    (start.mode = .running ∧ ∀ r, start.status ≠ .waitingForKey r) ∧
    (∃ pressed : Bool, pressed = false) ∧ (start.setKey 4 true).keyDown 4 = true :=
  ⟨⟨rfl, fun _ h => nomatch h⟩, ⟨false, rfl⟩, by decide⟩

theorem witness_key_invalid : start.mode = .running ∧ ((-1 : Int) < 0 ∧ (15 : Int) < 16) := by decide

theorem witness_key_wait_ends : start.mode = .running ∧ start.status = .executing ∧ start.keyDown 0 = false := by decide

/-- FX18 with the sound timer going on, off, and staying as it is. -/
theorem witness_sound_timer :
    (start.st.toNat = 0 ∧ 0 < ((withRegs [1]).reg 0).toNat) ∧
    (0 < ({ start with st := 5 } : State).st.toNat ∧ (start.reg 0).toNat = 0) ∧
    (start.st.toNat = 0 ↔ (start.reg 0).toNat = 0) := by decide

/-- FX33, FX55 and FX65 with the last address at 4095 and 4096. -/
theorem witness_memory_range :
    ({ start with idx := 0xFFD } : State).idx.toNat + 2 = 4095 ∧ ({ start with idx := 0xFFE } : State).idx.toNat + 2 = 4096 ∧
    ({ start with idx := 0xFF0 } : State).idx.toNat + (15#4).toNat = 4095 ∧
    ({ start with idx := 0xFF1 } : State).idx.toNat + (15#4).toNat = 4096 := by decide

theorem witness_stored_code :
    let s : State := { withRegs [0x60, 0x05] with idx := 0xFFE, pc := 0xFFE }
    s.mode = .running ∧ s.status = .executing ∧ s.idx = s.pc ∧ 1 ≤ (1#4).toNat ∧ s.idx.toNat + (1#4).toNat ≤ 4095 ∧
    s.pc.toNat < s.progEnd ∧ decodeWord (BitVec.ofNat 16 (256 * (s.reg 0).toNat + (s.reg 1).toNat)) = .ok (.ldImm 0 5) := by decide

theorem witness_tick : start.mode = .running ∧ ({ start with st := 1 } : State).st.toNat = 1 := by decide

theorem witness_many_ticks :
    let s : State := { start with dt := 2, events := [.tick, .tick, .tick, .cycle] }
    s.mode = .running ∧ s.events = List.replicate 3 .tick ++ [.cycle] := by decide

theorem witness_launcher : State.reset.mode = .launcher := rfl

/-- Images of 3584 and of 3585 bytes in Launcher, and any image in Running. -/
theorem witness_load :
    start.mode = .running ∧ State.reset.mode = .launcher ∧ (List.replicate 3584 (0 : Byte)).length ≤ 3584 ∧ 3584 < (List.replicate 3585 (0 : Byte)).length := by
  simp only [List.length_replicate]
  decide

theorem witness_reset_request : ({ start with status := .halted (.illegalOpcode 0) } : State).mode = .running := rfl

theorem witness_faults :
    faultOf (.call 0) { start with sp := 16 } = some (.stackOverflow 0x1FE) ∧ faultOf .ret start = some (.stackUnderflow 0x1FE) ∧
    faultOf (.jpV0 0xFFF) (withRegs [1]) = some (.addressOutOfRange 4096) ∧
    faultOf (.drw 0 0 2) { start with idx := 0xFFF } = some (.addressOutOfRange 4096) ∧
    faultOf (.ldB 0) { start with idx := 0xFFE } = some (.addressOutOfRange 4096) ∧
    faultOf (.storeRegs 15) { start with idx := 0xFF1 } = some (.addressOutOfRange 4096) ∧
    faultOf (.loadRegs 15) { start with idx := 0xFF1 } = some (.addressOutOfRange 4096) ∧
    faultOf (.skp 0) (withRegs [16]) = some (.keyIndexOutOfRange 16) ∧ faultOf (.sknp 0) (withRegs [16]) = some (.keyIndexOutOfRange 16) ∧
    faultOf (.drw 0 0 0) { start with idx := 0xFFF } = none ∧ faultOf (.ldVxK 0) start = none := by decide

/-- `exec` gives a next state in which `p` holds. -/
def afterExec (i : Instr) (s : State) (p : State → Bool) : Bool :=
  match exec i s with
  | .next t => p t
  | .fault _ => false
  | .refused _ => false

theorem witness_elements_change :
    afterExec (.ldI 5) start (fun t => t.idx != start.idx) = true ∧
    afterExec (.call 0) start (fun t => t.stk != start.stk && t.sp != start.sp) = true ∧
    afterExec (.ldDtVx 0) (withRegs [1]) (fun t => t.dt != start.dt) = true ∧
    afterExec (.ldStVx 0) (withRegs [1]) (fun t => t.st != start.st && t.out != start.out) = true ∧
    afterExec (.drw 0 1 5) start (fun t => Screen.get t.fb 0 0 != Screen.get start.fb 0 0) = true ∧
    afterExec (.storeRegs 0) (withRegs [1]) (fun t => t.readByte 0 != (withRegs [1]).readByte 0) = true ∧
    afterExec (.addReg 0 1) (withRegs [0xFF, 2]) (fun t => t.reg 0 != 0xFF && t.reg 15 != (withRegs [0xFF, 2]).reg 15) = true := by decide

theorem witness_pc_advances :
    faultOf (.seImm 0 0) start = none ∧ ¬isJump (.seImm 0 0) ∧ ∀ x, Instr.seImm 0 0 ≠ .ldVxK x :=
  ⟨rfl, by simp [isJump], fun _ h => nomatch h⟩

/-- The three invariants hold while a program waits for a key, the tone on, and TICK then gives a next state. -/
def waiting : State := { start.placeWord 0xF50A with status := .waitingForKey 5, st := 5, out := [.soundOn], events := [.tick] }

theorem waiting_reads : waiting.pc.toNat ≤ 4094 ∧ decodeWord (waiting.wordAt waiting.pc.toNat) = .ok (.ldVxK 5) := by decide

theorem witness_inv : waiting.Inv where
  idx_le := by decide
  pc_le := by decide
  progEnd_ge := by decide
  progEnd_le := by decide
  stk_le := fun j _ hj => absurd hj (Nat.not_lt_zero j)
  launcher := fun h => nomatch h
  waiting := fun r hr => by
    have : r = 5 := by
      injection hr with h
      exact h.symm
    subst this
    exact waiting_reads

theorem witness_soundInv : waiting.SoundInv := rfl

theorem witness_memory_wf : waiting.mem = [(0x200, 0xF5), (0x201, 0x0A)] ∧ Memory.wf waiting.cfg.font waiting.mem := by decide

theorem witness_step_next : ∃ t, step waiting = .next t := ⟨_, rfl⟩

theorem witness_halted_frozen :
    let s : State := { start with dt := 3, status := .halted (.endOfProgram 0x200) }
    s.mode = .running ∧ s.status = .halted (.endOfProgram 0x200) ∧ Event.tick ≠ .resetReq ∧ ∃ t, handle .tick s = .next t :=
  ⟨rfl, rfl, by decide, _, rfl⟩

theorem witness_waiting :
    waiting.mode = .running ∧ waiting.status = .waitingForKey 5 ∧ Event.key 4 false ≠ .resetReq ∧ (∀ k, Event.key 4 false ≠ .key k true) ∧
    ∃ t, handle (.key 4 false) waiting = .next t :=
  ⟨rfl, rfl, by decide, fun _ h => (nomatch (Event.key.inj h).2), _, rfl⟩

end Sys2Proof.Tests
end

section

namespace Sys2Proof.Machine

/-! ## What one step delivers -/

/-- One step is `handle` of the next event, in the state without that event (R7). -/
theorem step_eq_handle_nextEvent (s : State) : step s = handle s.nextEvent.1 s.nextEvent.2 := rfl

/-- The list's first event is handled, and is off the list before it is (R7; log entry 1). -/
theorem step_of_events_cons {s : State} {e : Event} {es : List Event} (h : s.events = e :: es) :
    step s = handle e { s with events := es } := by
  rw [step_eq_handle_nextEvent, State.nextEvent_cons s h]

/-- Where the host has decided on no event, it is a CYCLE (R7; log entry 1). -/
theorem step_of_events_nil {s : State} (h : s.events = []) : step s = handle .cycle s := by
  rw [step_eq_handle_nextEvent, State.nextEvent_nil s h]

/-- Settles O6, by the equation of `step` for each form of the event list. -/
theorem stepDeliversTheNextEvent : Obligations.StepDeliversTheNextEvent := by
  unfold Obligations.StepDeliversTheNextEvent
  intro s
  constructor
  · intro e es hcons
    exact step_of_events_cons hcons
  · intro hnil
    exact step_of_events_nil hnil

end Sys2Proof.Machine
end

section

/-! The invariants of spec/10_state.md R40: a handful of ways to keep them, one for each shape a transition has, and from them every
instruction and every event. -/

namespace Sys2Proof.Machine

variable {s t : State} {i : Instr}

/-! ## Ways to keep the invariants -/

/-- What no invariant speaks of may change, and while Running both timers too. -/
theorem State.Inv.of_frame (h : s.Inv) (hidle : s.mode = .launcher → t.dt = s.dt ∧ t.st = s.st)
    (ht : t = { s with
      x := t.x, dt := t.dt, st := t.st, fb := t.fb, key := t.key, out := t.out, draws := t.draws, events := t.events }) :
    t.Inv := by
  rw [ht]
  exact {
    idx_le := h.idx_le
    pc_le := h.pc_le
    progEnd_ge := h.progEnd_ge
    progEnd_le := h.progEnd_le
    stk_le := h.stk_le
    launcher := fun hm => by
      obtain ⟨hdt, hst⟩ := hidle hm
      obtain ⟨hstatus, hdt0, hst0, hsp, hpc⟩ := h.launcher hm
      exact ⟨hstatus, hdt.trans hdt0, hst.trans hst0, hsp, hpc⟩
    waiting := h.waiting }

/-- While Running and not waiting only the bounds are left to show. -/
theorem State.Inv.of_bounds (h : s.Inv) (hmode : s.mode = .running) (hwait : ∀ r, t.status ≠ .waitingForKey r)
    (hidx : t.idx.toNat ≤ 0xFFF) (hpc : t.pc.toNat ≤ 4098)
    (hstk : ∀ (j : Nat) (hj : j < 16), j < t.sp.val → t.stk[j].toNat ≤ 4096)
    (ht : t = { s with
      x := t.x, idx := t.idx, pc := t.pc, stk := t.stk, sp := t.sp, key := t.key, status := t.status, mem := t.mem }) :
    t.Inv where
  idx_le := hidx
  pc_le := hpc
  progEnd_ge := by rw [ht]; exact h.progEnd_ge
  progEnd_le := by rw [ht]; exact h.progEnd_le
  stk_le := hstk
  launcher := by rw [ht]; simp [hmode]
  waiting := fun r hr => absurd hr (hwait r)

/-- The same where `idx` and the stack are kept too, so that only `pc` has to be bounded. -/
theorem State.Inv.of_pc_le (h : s.Inv) (hmode : s.mode = .running) (hwait : ∀ r, t.status ≠ .waitingForKey r)
    (hpc : t.pc.toNat ≤ 4098) (ht : t = { s with x := t.x, pc := t.pc, key := t.key, status := t.status, mem := t.mem }) :
    t.Inv :=
  h.of_bounds hmode hwait (by rw [ht]; exact h.idx_le) hpc (by rw [ht]; exact h.stk_le) (by rw [ht])

/-- A run that POWER_ON, LOAD or RESET_REQ has just set up (R39). -/
theorem State.Inv.of_cleared (hidx : t.idx = 0) (hpc : t.pc = 0x200) (hsp : t.sp = 0) (hstatus : t.status = .executing)
    (hdt : t.dt = 0) (hst : t.st = 0) (hge : 0x200 ≤ t.progEnd) (hle : t.progEnd ≤ 0x1000) : t.Inv where
  idx_le := by simp [hidx]
  pc_le := by simp [hpc]
  progEnd_ge := hge
  progEnd_le := hle
  stk_le := fun j _ hj => by simp [hsp] at hj
  launcher := fun _ => ⟨hstatus, hdt, hst, hsp, hpc⟩
  waiting := fun r hr => by simp [hstatus] at hr

/-- Settles O58, as POWER_ON leaves a cleared run, an empty trace and an empty memory. -/
theorem invariantsHoldAfterPowerOn : Obligations.InvariantsHoldAfterPowerOn := by
  intro cfg
  refine ⟨?inv, ?sound, powerOn_wf cfg⟩
  case inv => exact State.Inv.of_cleared rfl rfl rfl rfl rfl rfl (Nat.le_refl _) (by decide : loadBase ≤ 0x1000)
  case sound => rfl

/-! ## An instruction keeps the invariants -/

theorem toNat_add_two {w : Word} (h : w.toNat ≤ 4096) : (w + 2).toNat = w.toNat + 2 := by
  rw [BitVec.toNat_add]
  exact Nat.mod_eq_of_lt (by simp; omega)

/-- An instruction that completes keeps the invariants. It is entered with `pc = A + 2`, inside the address space, and in `hfetch`
with what a key-wait needs: A is the address of its own word. -/
theorem Effect.inv (ef : Effect s t i) (h : s.Inv) (hmode : s.mode = .running) (hexec : s.status = .executing)
    (hpc : s.pc.toNat ≤ 4096) (hfetch : (s.pc - 2).toNat ≤ 4094 ∧ decodeWord (s.wordAt (s.pc - 2).toNat) = .ok i) : t.Inv := by
  have hrun : s.mode = .launcher → t.dt = s.dt ∧ t.st = s.st := fun hm => by simp [hmode] at hm
  have hwait : t.status = s.status → ∀ r, t.status ≠ .waitingForKey r := fun hkept r => by simp [hkept, hexec]
  cases i with
  | cls | ldDtVx => exact h.of_frame hrun (by rw [ef])
  | ldStVx x => exact h.of_frame hrun (by rw [ef]; rfl)
  | rnd | drw | loadRegs | ldImm | addImm | ldReg | orReg | andReg | xorReg | ldVxDt | addReg | subReg | shr | subnReg | shl =>
    obtain ⟨-, ht⟩ := ef
    exact h.of_frame hrun (by rw [ht])
  | ldB | storeRegs =>
    obtain ⟨-, ht⟩ := ef
    exact h.of_pc_le hmode (hwait (by rw [ht])) (by rw [ht]; exact h.pc_le) (by rw [ht])
  | jp | jpV0 =>
    obtain ⟨hle, ht⟩ := ef
    exact h.of_pc_le hmode (hwait (by rw [ht])) (by omega) (by rw [ht])
  | seImm | sneImm | seReg | sneReg | skp | sknp =>
    obtain ⟨hskip, ht⟩ := ef
    have hle : t.pc.toNat ≤ 4098 := by
      rcases hskip with hskip | hskip <;> rw [hskip]
      · omega
      · rw [toNat_add_two hpc]; omega
    exact h.of_pc_le hmode (hwait (by rw [ht])) hle (by rw [ht])
  | ldI | addI | ldF =>
    obtain ⟨hle, ht⟩ := ef
    exact h.of_bounds hmode (hwait (by rw [ht])) hle (by rw [ht]; exact h.pc_le) (by rw [ht]; exact h.stk_le) (by rw [ht])
  | ret =>
    obtain ⟨hpos, hsp, htop, ht⟩ := ef
    have hlt : s.sp.val - 1 < 16 := by omega
    have hle : t.pc.toNat ≤ 4096 := by
      rw [htop hlt]
      exact h.stk_le _ hlt (by omega)
    have hstk : ∀ (j : Nat) (hj : j < 16), j < t.sp.val → t.stk[j].toNat ≤ 4096 := fun j hj hlive => by
      have hkept : t.stk = s.stk := by rw [ht]
      simpa only [hkept] using h.stk_le j hj (by omega)
    exact h.of_bounds hmode (hwait (by rw [ht])) (by rw [ht]; exact h.idx_le) (by omega) hstk (by rw [ht])
  | call =>
    obtain ⟨hle, hsp, hpush, ht⟩ := ef
    have hstk : ∀ (j : Nat) (hj : j < 16), j < t.sp.val → t.stk[j].toNat ≤ 4096 := fun j hj hlive => by
      rw [hpush j hj]
      split
      · exact hpc
      · exact h.stk_le j hj (by omega)
    exact h.of_bounds hmode (hwait (by rw [ht])) (by rw [ht]; exact h.idx_le) (by omega) hstk (by rw [ht])
  | ldVxK x =>
    rw [ef]
    exact {
      idx_le := h.idx_le
      pc_le := Nat.le_trans hfetch.1 (by omega)
      progEnd_ge := h.progEnd_ge
      progEnd_le := h.progEnd_le
      stk_le := h.stk_le
      launcher := fun hm => by simp [hmode] at hm
      waiting := fun r hr => by
        obtain rfl : x = r := Status.waitingForKey.inj hr
        exact hfetch }

/-! ## An event keeps the invariants -/

/-- CYCLE: the fetch leaves `pc` at most 4096, and then a halt or the instruction's effect follows (R91 to R94). -/
theorem cycle_inv (h : s.Inv) (ht : handle .cycle s = .next t) : t.Inv := by
  rcases handle_cycle_cases ht with rfl | ⟨hmode, hexec, ⟨hl, rfl⟩ | ⟨-, hle, hrest⟩⟩
  · exact h
  · exact h.of_pc_le hmode (by simp) h.pc_le rfl
  · have hpc : (s.pc + 2).toNat ≤ 4096 := by rw [toNat_add_two (by omega)]; omega
    have hfetched : ({ s with pc := s.pc + 2 } : State).Inv := h.of_pc_le hmode (by simp [hexec]) (by simp only; omega) rfl
    rcases hrest with ⟨hl, rfl⟩ | ⟨i, hdecode, hrun⟩
    · exact hfetched.of_pc_le hmode (by simp) hfetched.pc_le rfl
    · rcases exec_cases hrun with ⟨hl, rfl⟩ | ef
      · exact hfetched.of_pc_le hmode (by simp) hfetched.pc_le rfl
      · refine ef.inv hfetched hmode hexec hpc ?_
        rw [BitVec.add_sub_cancel s.pc 2]
        exact ⟨hle, hdecode⟩

theorem State.tick_launcher (s : State) (hm : s.mode = .launcher) : s.tick = s := by
  simp only [State.tick, hm]

/-- TICK counts the timers down while Running alone (R181), and nothing bounds them there. -/
theorem State.tick_inv (h : s.Inv) : s.tick.Inv := by
  cases hm : s.mode with
  | launcher => rwa [s.tick_launcher hm]
  | running => rw [s.tick_running hm]; exact h.of_frame (fun hl => by simp [hm] at hl) rfl

/-- A latch update sets the latch bit alone, or it also resumes a key-wait (R144 to R146). -/
theorem State.latch_cases (s : State) (k : Key) (p : Bool) :
    s.latch k p = s.setKey k p ∨
      ∃ r, s.status = .waitingForKey r ∧
        s.latch k p = { (s.setKey k p).setReg r (zextKey k) with pc := s.pc + 2, status := .executing } := by
  by_cases hlatch : (∀ r, s.status ≠ .waitingForKey r) ∨ p = false ∨ s.keyDown k = true
  · exact .inl (s.latch_only_key hlatch)
  · obtain ⟨⟨r, hr⟩, rfl, hk⟩ : (∃ r, s.status = .waitingForKey r) ∧ p = true ∧ s.keyDown k = false := by simpa using hlatch
    exact .inr ⟨r, hr, s.latch_resumes hr hk⟩

/-- A press that resumes a key-wait leaves `pc` past the FX0A, which lies at most at 4094. -/
theorem State.latch_inv (h : s.Inv) (hmode : s.mode = .running) (k : Key) (p : Bool) : (s.latch k p).Inv := by
  rcases s.latch_cases k p with hl | ⟨r, hr, hl⟩ <;> rw [hl]
  · exact h.of_frame (fun _ => ⟨rfl, rfl⟩) rfl
  · have hle := (h.waiting r hr).1
    have hpc : (s.pc + 2).toNat ≤ 4098 := by rw [toNat_add_two (by omega)]; omega
    exact h.of_pc_le hmode (by simp) hpc rfl

/-- KEY does nothing, reports an invalid index, or updates the latch while Running (R143, R144, R147). -/
theorem State.keyEvent_cases (s : State) (k : Int) (p : Bool) :
    s.keyEvent k p = s ∨ s.keyEvent k p = s.emit (.diagInvalidKeyIndex k) ∨
      (s.mode = .running ∧ ∃ j, s.keyEvent k p = s.latch j p) := by
  unfold State.keyEvent
  split
  · exact .inl rfl
  · rename_i hm
    split
    · exact .inr (.inl rfl)
    · exact .inr (.inr ⟨hm, _, rfl⟩)

theorem State.keyEvent_inv (h : s.Inv) (k : Int) (p : Bool) : (s.keyEvent k p).Inv := by
  rcases s.keyEvent_cases k p with hk | hk | ⟨hm, j, hk⟩ <;> rw [hk]
  · exact h
  · exact h.of_frame (fun _ => ⟨rfl, rfl⟩) rfl
  · exact State.latch_inv h hm j p

/-- LOAD is a no-op, a report, or starts a run whose image ends inside the address space (R202 to R204). -/
theorem State.load_inv (h : s.Inv) (image : List Byte) : (s.load image).Inv := by
  cases hm : s.mode with
  | running => rwa [s.load_running image hm]
  | launcher =>
    by_cases hlen : image.length ≤ maxImage
    · rw [s.load_accepted image hm hlen]
      have hle : loadBase + image.length ≤ 0x1000 := by simp only [loadBase, maxImage] at *; omega
      exact State.Inv.of_cleared rfl rfl rfl rfl rfl rfl (Nat.le_add_right _ _) hle
    · rw [s.load_oversize image hm (by omega)]
      exact h.of_frame (fun _ => ⟨rfl, rfl⟩) rfl

/-- RESET_REQ is a no-op or clears the run (R207, R208). -/
theorem State.resetRequest_inv (h : s.Inv) : s.resetRequest.Inv := by
  cases hm : s.mode with
  | launcher => rwa [s.resetRequest_launcher hm]
  | running =>
    rw [s.resetRequest_running hm]
    exact State.Inv.of_cleared rfl rfl rfl rfl rfl rfl (Nat.le_refl _) (by decide : loadBase ≤ 0x1000)

theorem handle_inv {e : Event} (h : s.Inv) (ht : handle e s = .next t) : t.Inv := by
  cases e with
  | powerOn => cases ht
  | load image => cases ht; exact State.load_inv h image
  | resetReq => cases ht; exact State.resetRequest_inv h
  | cycle => exact cycle_inv h ht
  | tick => cases ht; exact State.tick_inv h
  | key k p => cases ht; exact State.keyEvent_inv h k p

/-- Settles O55, by the invariants' step for each event; taking the event off the list touches none of them. -/
theorem invariantsAreKeptByEveryStep : Obligations.InvariantsAreKeptByEveryStep := by
  intro s t h hstep
  have htaken : s.nextEvent.2.Inv := h.of_frame (fun _ => by simp) (by rw [s.nextEvent_only_events])
  exact handle_inv htaken hstep

end Sys2Proof.Machine
end

section

/-! What an instruction may change (spec/10_state.md R22, R24, R25): the elements, the registers and `pc`, each read off its effect. -/

namespace Sys2Proof.Machine

variable {s t : State} {i : Instr}

/-! ## The elements -/

/-- The "written by" column of R25 for the instructions. For memory it names the field with what else a read of a byte depends on. -/
def WrittenAsNamed (i : Instr) (s t : State) : Prop :=
  (t.idx ≠ s.idx → (∃ nnn, i = .ldI nnn) ∨ (∃ x, i = .addI x) ∨ ∃ x, i = .ldF x) ∧
  (t.stk ≠ s.stk → ∃ nnn, i = .call nnn) ∧
  (t.sp ≠ s.sp → (∃ nnn, i = .call nnn) ∨ i = .ret) ∧
  (t.dt ≠ s.dt → ∃ x, i = .ldDtVx x) ∧
  (t.st ≠ s.st ∨ t.out ≠ s.out → ∃ x, i = .ldStVx x) ∧
  (t.fb ≠ s.fb → i = .cls ∨ ∃ x y n, i = .drw x y n) ∧
  (t.mem ≠ s.mem → (∃ x, i = .ldB x) ∨ ∃ x, i = .storeRegs x) ∧
  (t.cfg = s.cfg ∧ t.fillEpoch = s.fillEpoch) ∧
  t.key = s.key ∧ t.mode = s.mode ∧ t.progEnd = s.progEnd

/-- The frame in each instruction's effect leaves only its own elements open. -/
theorem Effect.writtenAsNamed (ef : Effect s t i) : WrittenAsNamed i s t := by
  cases i with
  | cls | ldDtVx | ldVxK | ldStVx => rw [ef]; simp [WrittenAsNamed]
  | ret => obtain ⟨-, -, -, ht⟩ := ef; rw [ht]; simp [WrittenAsNamed]
  | call => obtain ⟨-, -, -, ht⟩ := ef; rw [ht]; simp [WrittenAsNamed]
  | jp | jpV0 | seImm | sneImm | seReg | sneReg | skp | sknp | ldI | addI | ldF | rnd | drw | ldB | storeRegs | loadRegs | ldImm
  | addImm | ldReg | orReg | andReg | xorReg | ldVxDt | addReg | subReg | shr | subnReg | shl =>
    obtain ⟨-, ht⟩ := ef
    rw [ht]
    simp [WrittenAsNamed]

theorem exec_writtenAsNamed (h : exec i s = .next t) : WrittenAsNamed i s t := by
  rcases exec_cases h with ⟨hl, rfl⟩ | ef
  · simp [WrittenAsNamed]
  · exact ef.writtenAsNamed

/-- Settles O52: a byte that reads differently needs another memory, as the font and the fill are the same. -/
theorem elementsChangeOnlyByTheirWriters : Obligations.ElementsChangeOnlyByTheirWriters := by
  intro i s t h
  obtain ⟨hidx, hstk, hsp, hdt, hst, hfb, hmem, ⟨hcfg, hfill⟩, hkept⟩ := exec_writtenAsNamed h
  refine ⟨hidx, hstk, hsp, hdt, hst, hfb, ?_, hkept⟩
  rintro ⟨a, hne⟩
  exact hmem fun hm => hne (State.readByte_congr hm hcfg hfill a)

/-! ## The registers -/

/-- A register that is no destination, no register of the bulk load and no flag keeps its byte (R22). -/
theorem Effect.reg_eq (ef : Effect s t i) {r : Reg} (hdest : namesDestination i r ≠ true)
    (hflag : ¬(r = 15 ∧ writesFlag i = true)) : t.reg r = s.reg r := by
  cases i with
  | cls | ldDtVx | ldVxK | ldStVx => rw [ef]; rfl
  | ret | call => obtain ⟨-, -, -, ht⟩ := ef; rw [ht]; rfl
  | jp | jpV0 | seImm | sneImm | seReg | sneReg | skp | sknp | ldI | addI | ldF | ldB | storeRegs =>
    obtain ⟨-, ht⟩ := ef
    rw [ht]
    rfl
  | rnd | ldImm | addImm | ldReg | orReg | andReg | xorReg | ldVxDt => exact ef.1 r (by simpa [namesDestination] using hdest)
  | addReg | subReg | shr | subnReg | shl =>
    exact ef.1 r (by simpa [namesDestination] using hdest) (by simpa [writesFlag] using hflag)
  | drw => exact ef.1 r (by simpa [writesFlag] using hflag)
  | loadRegs => exact ef.1 r (by simpa [namesDestination] using hdest)

/-- Settles O53, as a halt changes no register and an instruction's effect only those named. -/
theorem registersChangeOnlyAsNamed : Obligations.RegistersChangeOnlyAsNamed := by
  intro i s t h r hne
  by_contra hnot
  obtain ⟨hdest, hflag⟩ := not_or.1 hnot
  rcases exec_cases h with ⟨hl, rfl⟩ | ef
  · exact hne rfl
  · exact hne (ef.reg_eq hdest hflag)

/-! ## The program counter -/

theorem State.checkLast_next (s u : State) (last : Nat) : ∃ t, s.checkLast last (.next u) = .next t := by
  unfold State.checkLast
  split <;> exact ⟨_, rfl⟩

theorem State.keyTest_next (s : State) (k : Byte) (want : Bool) : ∃ t, s.keyTest k want = .next t := by
  rcases s.keyTest_spec k want with ⟨-, h⟩ | ⟨-, h⟩ <;> exact ⟨_, h⟩

/-- Every instruction answers a next state: the spec's faults are next states too (R172). -/
theorem exec_next (i : Instr) (s : State) : ∃ t, exec i s = .next t := by
  cases i with
  | call =>
    simp only [exec, execCall]
    split <;> exact ⟨_, rfl⟩
  | ret =>
    simp only [exec, execRet]
    split <;> exact ⟨_, rfl⟩
  | jpV0 =>
    simp only [exec, execJpV0]
    split <;> exact ⟨_, rfl⟩
  | drw x y n =>
    simp only [exec, execDrw]
    split
    · exact ⟨_, rfl⟩
    · exact State.checkLast_next ..
  | skp | sknp => exact State.keyTest_next ..
  | ldB | storeRegs | loadRegs => exact State.checkLast_next ..
  | cls | jp | seImm | sneImm | seReg | sneReg | ldImm | addImm | ldReg | orReg | andReg | xorReg | addReg | subReg | shr | subnReg
  | shl | ldI | rnd | ldVxDt | ldVxK | ldDtVx | ldStVx | addI | ldF => exact ⟨_, rfl⟩

/-- Entered with `pc = A + 2`, an instruction that is no jump and no key-wait leaves it there, a skip may add 2 (R24). -/
theorem Effect.pc_eq (ef : Effect s t i) (hjump : ¬isJump i) (hwait : ∀ x, i ≠ .ldVxK x) :
    t.pc = s.pc ∨ (isSkip i ∧ t.pc = s.pc + 2) := by
  cases i with
  | jp | call | ret | jpV0 => exact absurd (by simp [isJump]) hjump
  | ldVxK x => exact absurd rfl (hwait x)
  | seImm | sneImm | seReg | sneReg | skp | sknp =>
    obtain ⟨hpc, -⟩ := ef
    exact hpc.imp_right fun hskip => ⟨by simp [isSkip], hskip⟩
  | cls | ldDtVx => exact .inl (by rw [ef])
  | ldStVx x => exact .inl (by rw [ef, State.setSt_pc])
  | ldI | addI | ldF | rnd | drw | ldB | storeRegs | loadRegs | ldImm | addImm | ldReg | orReg | andReg | xorReg | ldVxDt | addReg
  | subReg | shr | subnReg | shl =>
    obtain ⟨-, ht⟩ := ef
    exact .inl (by rw [ht])

/-- Settles O54, as a halt leaves `pc` where the fetch put it, too. -/
theorem pcAdvancesByTwoOrFour : Obligations.PcAdvancesByTwoOrFour := by
  intro i s _ hjump hwait
  obtain ⟨t, ht⟩ := exec_next i s
  refine ⟨t, ht, ?_⟩
  rcases exec_cases ht with ⟨hl, rfl⟩ | ef
  · exact .inl rfl
  · exact ef.pc_eq hjump hwait

end Sys2Proof.Machine
end

section

/-! The memory's canonical form (spec/20_memory.md R50, R57; log entry 17): an instruction either leaves the memory alone or stores
inside the address space, and so does an event. -/

namespace Sys2Proof.Machine

variable {s t : State} {i : Instr}

/-- The memory is in the canonical form of the state's own font. -/
def State.MemWf (s : State) : Prop := Memory.wf s.cfg.font s.mem

/-- The form is a matter of memory and font alone. -/
theorem State.MemWf.of_eq (h : s.MemWf) (hmem : t.mem = s.mem) (hcfg : t.cfg = s.cfg) : t.MemWf := by
  rwa [State.MemWf, hmem, hcfg]

/-- Only FX33 and FX55 change the memory (R25), and both check their whole range first (R57). -/
theorem Effect.memWf (ef : Effect s t i) (h : s.MemWf) : t.MemWf := by
  obtain ⟨-, -, -, -, -, -, hstores, ⟨hcfg, -⟩, -⟩ := ef.writtenAsNamed
  by_cases hmem : t.mem = s.mem
  · exact h.of_eq hmem hcfg
  · rw [State.MemWf, hcfg]
    rcases hstores hmem with ⟨x, rfl⟩ | ⟨x, rfl⟩
    · exact ef.1 h
    · exact ef.1 h

theorem exec_memWf (h : s.MemWf) (ht : exec i s = .next t) : t.MemWf := by
  rcases exec_cases ht with ⟨hl, rfl⟩ | ef
  · exact h
  · exact ef.memWf h

/-- CYCLE: the gate, a halt and the fetch leave the memory alone; what is left is the instruction (R90 to R94). -/
theorem cycle_memWf (h : s.MemWf) (ht : handle .cycle s = .next t) : t.MemWf := by
  rcases handle_cycle_cases ht with rfl | ⟨-, -, ⟨hl, rfl⟩ | ⟨-, -, ⟨hl, rfl⟩ | ⟨i, -, hrun⟩⟩⟩
  · exact h
  · exact h
  · exact h
  · have hfetched : ({ s with pc := s.pc + 2 } : State).MemWf := h
    exact exec_memWf hfetched hrun

theorem State.tick_memWf (h : s.MemWf) : s.tick.MemWf := by
  cases hm : s.mode with
  | launcher => rwa [s.tick_launcher hm]
  | running => rw [s.tick_running hm]; exact h

theorem State.keyEvent_memWf (h : s.MemWf) (k : Int) (p : Bool) : (s.keyEvent k p).MemWf := by
  rcases s.keyEvent_cases k p with hk | hk | ⟨-, j, hk⟩ <;> rw [hk]
  · exact h
  · exact h
  · rw [s.latch_only j p]; exact h

/-- LOAD: an accepted image ends inside the address space and begins above the font (R202 to R204). -/
theorem State.load_memWf (h : s.MemWf) (image : List Byte) : (s.load image).MemWf := by
  cases hm : s.mode with
  | running => rwa [s.load_running image hm]
  | launcher =>
    by_cases hlen : image.length ≤ maxImage
    · rw [s.load_accepted image hm hlen]; exact Memory.load_wf hlen h
    · rw [s.load_oversize image hm (by omega)]; exact h

/-- RESET_REQ: at most the cells outside the font are forgotten (R207 to R209). -/
theorem State.resetRequest_memWf (h : s.MemWf) : s.resetRequest.MemWf := by
  cases hm : s.mode with
  | launcher => rwa [s.resetRequest_launcher hm]
  | running => rw [s.resetRequest_running hm]; exact Memory.fontCells_wf h

theorem handle_memWf {e : Event} (h : s.MemWf) (ht : handle e s = .next t) : t.MemWf := by
  cases e with
  | powerOn => cases ht
  | load image => cases ht; exact State.load_memWf h image
  | resetReq => cases ht; exact State.resetRequest_memWf h
  | cycle => exact cycle_memWf h ht
  | tick => cases ht; exact State.tick_memWf h
  | key k p => cases ht; exact State.keyEvent_memWf h k p

/-- Settles O57, by the canonical form's step for each event; taking the event off the list touches neither memory nor font. -/
theorem memoryStaysCanonical : Obligations.MemoryStaysCanonical := by
  intro s t h hstep
  have hs : s.MemWf := h
  have htaken : s.nextEvent.2.MemWf := hs.of_eq s.nextEvent_mem s.nextEvent_cfg
  exact handle_memWf htaken hstep

end Sys2Proof.Machine
end

section

/-! Fetch and decode (spec/40_cycle_fetch_decode.md R92 to R94), and what a store into code leaves for the next fetch
(spec/20_memory.md R62). -/

namespace Sys2Proof.Machine

variable {s : State}

/-! ## Fetch and decode -/

/-- The word in memory is the big-endian number of its two bytes (R54). -/
theorem State.wordAt_eq_of_toNat {a : Nat} {w : Word} (h : w.toNat = 256 * (s.readByte a).toNat + (s.readByte (a + 1)).toNat) :
    s.wordAt a = w :=
  BitVec.eq_of_toNat_eq ((toNat_wordOfBytes _ _).trans h.symm)

/-- Inside the image and the address space a CYCLE runs the word at `pc`, with `pc` past it (R90 to R92). -/
theorem handle_cycle_of_fetch (hmode : s.mode = .running) (hexec : s.status = .executing) (hend : s.pc.toNat < s.progEnd)
    (hpc : s.pc.toNat ≤ 4094) : handle .cycle s = runWord (s.wordAt s.pc.toNat) { s with pc := s.pc + 2 } := by
  have hgate : handle .cycle s = stepEngine s := if_pos ⟨hmode, hexec⟩
  rw [hgate, stepEngine, if_neg (by omega), s.memRead2_of_lt hpc]

/-- A legal word runs the instruction it decodes to (R94). -/
theorem runWord_of_decode {w : Word} {i : Instr} (h : decodeWord w = .ok i) : runWord w s = exec i s := by
  simp only [runWord, h]

/-- An illegal word halts with itself (R93). -/
theorem runWord_of_illegal {w : Word} (h : ∀ i, decodeWord w ≠ .ok i) : runWord w s = s.raise (.illegalOpcode w) := by
  cases hw : decodeWord w with
  | ok i => exact absurd hw (h i)
  | error e => simp only [runWord, hw]

/-- Settles O11, by the fetched word's two fates: it decodes, or it is illegal. -/
theorem fetchDecodeExecute : Obligations.FetchDecodeExecute := by
  intro s w hmode hexec hend hpc hw
  rw [handle_cycle_of_fetch hmode hexec hend hpc, State.wordAt_eq_of_toNat hw]
  constructor
  · intro i hi
    exact runWord_of_decode hi
  · intro hillegal
    exact runWord_of_illegal hillegal

/-! ## A store into code -/

/-- An FX55 inside the address space writes the registers from `idx` up (R157). -/
theorem exec_storeRegs_of_le {x : Reg} (h : s.idx.toNat + x.toNat ≤ 4095) :
    exec (.storeRegs x) s = .next (s.writeBytes s.idx.toNat (s.regs (regCount x))) :=
  s.checkLast_of_le _ h

/-- The word at `a` is `x[0]` and `x[1]` after at least two registers are written there (R54, R157). -/
theorem State.wordAt_writeBytes_regs (s : State) (a : Nat) {n : Nat} (hn : 1 < n) :
    (s.writeBytes a (s.regs n)).wordAt a = wordOfBytes (s.reg 0) (s.reg 1) := by
  have hbyte : ∀ j, j < n → (s.writeBytes a (s.regs n)).readByte (a + j) = s.reg (BitVec.ofNat 4 j) := fun j hj => by
    rw [State.readByte_writeBytes_inside _ _ _ _ (by simpa using hj), State.getElem_regs]
  exact congrArg₂ wordOfBytes (hbyte 0 (by omega)) (hbyte 1 hn)

theorem wordOfBytes_eq_ofNat (hi lo : Byte) : wordOfBytes hi lo = BitVec.ofNat 16 (256 * hi.toNat + lo.toNat) := by
  rw [← toNat_wordOfBytes, BitVec.ofNat_toNat, BitVec.setWidth_eq]

/-- Settles O43: the word at `pc` reads back as `x[0]` and `x[1]`, and the fetch takes it from there. -/
theorem storedCodeIsFetchedNext : Obligations.StoredCodeIsFetchedNext := by
  intro x s i hmode hexec hidx hx hlast hend hi
  refine ⟨_, exec_storeRegs_of_le hlast, ?_⟩
  have hpc : s.pc.toNat ≤ 4094 := by rw [← hidx]; omega
  have hword : (s.writeBytes s.idx.toNat (s.regs (regCount x))).wordAt s.pc.toNat =
      BitVec.ofNat 16 (256 * (s.reg 0).toNat + (s.reg 1).toNat) := by
    rw [hidx, s.wordAt_writeBytes_regs _ (by simp only [regCount]; omega), wordOfBytes_eq_ofNat]
  rw [handle_cycle_of_fetch (by simpa using hmode) (by simpa using hexec) (by simpa using hend) (by simpa using hpc),
    State.writeBytes_pc, hword]
  exact runWord_of_decode hi

end Sys2Proof.Machine
end

section

/-! The decoder and the encoder undo each other, both follow the opcode table, and what the table leaves out is refused
(spec/30_encoding.md R75 to R82). -/

namespace Sys2Proof

variable {w : Word} {i : Instr}

/-! ## An encoding decodes -/

/-- The family and the sub-opcode written into the format select the decoder's arm, and its fields are the operands (R76, R82). -/
theorem decodeWord_encode (i : Instr) : decodeWord (encode i) = .ok i := by
  cases i with
  | cls | ret => rfl
  | jp | call | ldI | jpV0 | seImm | sneImm | ldImm | addImm | rnd | seReg | sneReg | drw => simp [encode, decodeWord]
  | ldReg | orReg | andReg | xorReg | addReg | subReg | shr | subnReg | shl => simp [encode, decodeWord, decodeFamily8]
  | skp | sknp => simp [encode, decodeWord, decodeFamilyE]
  | ldVxDt | ldVxK | ldDtVx | ldStVx | addI | ldF | ldB | storeRegs | loadRegs => simp [encode, decodeWord, decodeFamilyF]

theorem highByte_eq_ofNat (w : Word) : highByte w = BitVec.ofNat 8 (w.toNat / 256) := by
  rw [← toNat_highByte, BitVec.ofNat_toNat, BitVec.setWidth_eq]

theorem lowByte_eq_ofNat (w : Word) : lowByte w = BitVec.ofNat 8 (w.toNat % 256) := by
  rw [← toNat_lowByte, BitVec.ofNat_toNat, BitVec.setWidth_eq]

/-- A word's two bytes, high byte first, decode as the word does (R54). -/
theorem decode_bytes_of_decodeWord (h : decodeWord w = .ok i) (rest : List Byte) :
    decode (highByte w :: lowByte w :: rest) = .ok (i, rest) := by
  simp only [decode, wordOfBytes_split, h]

/-! ## A decoded word is the encoding -/

/-- A word of a known family is the layout of that family and its other fields (R71, R73). -/
theorem formatNNN_of_op {op : Nibble} (hop : (opField w).toNat = op.toNat) : formatNNN op (nnnField w) = w := by
  rw [← BitVec.eq_of_toNat_eq hop, formatNNN_fields]

theorem formatXNN_of_op {op : Nibble} (hop : (opField w).toNat = op.toNat) : formatXNN op (xField w) (nnField w) = w := by
  rw [← BitVec.eq_of_toNat_eq hop, formatXNN_fields]

theorem formatXYN_of_op {op : Nibble} (hop : (opField w).toNat = op.toNat) :
    formatXYN op (xField w) (yField w) (nField w) = w := by
  rw [← BitVec.eq_of_toNat_eq hop, formatXYN_fields]

/-- The same with the low byte known, as families E and F have it. -/
theorem formatXNN_of_op_nn {op : Nibble} {nn : Byte} (hop : (opField w).toNat = op.toNat)
    (hnn : (nnField w).toNat = nn.toNat) : formatXNN op (xField w) nn = w := by
  rw [← BitVec.eq_of_toNat_eq hnn, formatXNN_of_op hop]

/-- The same with the low nibble known, as families 5, 8 and 9 have it. -/
theorem formatXYN_of_op_n {op n : Nibble} (hop : (opField w).toNat = op.toNat) (hn : (nField w).toNat = n.toNat) :
    formatXYN op (xField w) (yField w) n = w := by
  rw [← BitVec.eq_of_toNat_eq hn, formatXYN_of_op hop]

theorem encode_of_decodeFamily8 (hop : (opField w).toNat = 0x8) (h : decodeFamily8 w = .ok i) : encode i = w := by
  unfold decodeFamily8 at h
  split at h <;> cases h <;> exact formatXYN_of_op_n hop ‹_›

theorem encode_of_decodeFamilyE (hop : (opField w).toNat = 0xE) (h : decodeFamilyE w = .ok i) : encode i = w := by
  unfold decodeFamilyE at h
  split at h <;> cases h <;> exact formatXNN_of_op_nn hop ‹_›

theorem encode_of_decodeFamilyF (hop : (opField w).toNat = 0xF) (h : decodeFamilyF w = .ok i) : encode i = w := by
  unfold decodeFamilyF at h
  split at h <;> cases h <;> exact formatXNN_of_op_nn hop ‹_›

/-- Every arm of the decoder keeps all fields of the word but those that selected the arm (R76, R82). -/
theorem encode_of_decodeWord (h : decodeWord w = .ok i) : encode i = w := by
  unfold decodeWord at h
  split at h
  case h_1 =>
    split_ifs at h with hcls hret <;> cases h
    · exact hcls.symm
    · exact hret.symm
  case h_2 hop | h_3 hop | h_11 hop | h_12 hop =>
    cases h
    exact formatNNN_of_op hop
  case h_4 hop | h_5 hop | h_7 hop | h_8 hop | h_13 hop =>
    cases h
    exact formatXNN_of_op hop
  case h_6 hop | h_10 hop =>
    split_ifs at h with hn
    cases h
    exact formatXYN_of_op_n hop (congrArg BitVec.toNat hn)
  case h_9 hop => exact encode_of_decodeFamily8 hop h
  case h_14 hop =>
    cases h
    exact formatXYN_of_op hop
  case h_15 hop => exact encode_of_decodeFamilyE hop h
  case h_16 =>
    have hop : (opField w).toNat = 0xF := by
      have := (opField w).isLt
      simp only [imp_false] at *
      omega
    exact encode_of_decodeFamilyF hop h

/-! ## The rows of the opcode table -/

/-- A field that a mask covers is the same after masking. -/
theorem extractLsb'_and_of_covers {mask : Word} {start len : Nat} (h : mask.extractLsb' start len = BitVec.allOnes len) :
    (w &&& mask).extractLsb' start len = w.extractLsb' start len := by
  rw [BitVec.extractLsb'_and, h, BitVec.and_allOnes]

section Masked

variable {mask bits : Word} (h : w &&& mask = bits)

include h

theorem opField_of_masked (hmask : opField mask = BitVec.allOnes 4) : opField w = opField bits := by
  rw [← h]
  exact (extractLsb'_and_of_covers hmask).symm

theorem nField_of_masked (hmask : nField mask = BitVec.allOnes 4) : nField w = nField bits := by
  rw [← h]
  exact (extractLsb'_and_of_covers hmask).symm

theorem nnField_of_masked (hmask : nnField mask = BitVec.allOnes 8) : nnField w = nnField bits := by
  rw [← h]
  exact (extractLsb'_and_of_covers hmask).symm

end Masked

/-- The bits a row fixes are those the decoder dispatches on, so an accepted word decodes to an instruction of that row (R75, R76). -/
theorem exists_decodeWord_of_accepts (h : (rowOf i).accepts w = true) : ∃ j, decodeWord w = .ok j ∧ rowOf j = rowOf i := by
  cases i with
  | cls | ret =>
    obtain rfl : w = _ := BitVec.and_allOnes.symm.trans (eq_of_beq h)
    exact ⟨_, rfl, rfl⟩
  | jp | call | seImm | sneImm | ldImm | addImm | ldI | jpV0 | rnd | drw =>
    have hw : w &&& 0xF000 = _ := eq_of_beq h
    simp [decodeWord, opField_of_masked hw rfl, toNat_opField, rowOf]
  | seReg | sneReg =>
    have hw : w &&& 0xF00F = _ := eq_of_beq h
    have hn : nField w = 0 := (nField_of_masked hw rfl).trans (by simp [rowOf, nField])
    simp [decodeWord, opField_of_masked hw rfl, hn, toNat_opField, rowOf]
  | ldReg | orReg | andReg | xorReg | addReg | subReg | shr | subnReg | shl =>
    have hw : w &&& 0xF00F = _ := eq_of_beq h
    simp [decodeWord, decodeFamily8, opField_of_masked hw rfl, nField_of_masked hw rfl, toNat_opField, toNat_nField, rowOf]
  | skp | sknp =>
    have hw : w &&& 0xF0FF = _ := eq_of_beq h
    simp [decodeWord, decodeFamilyE, opField_of_masked hw rfl, nnField_of_masked hw rfl, toNat_opField, toNat_nnField, rowOf]
  | ldVxDt | ldVxK | ldDtVx | ldStVx | addI | ldF | ldB | storeRegs | loadRegs =>
    have hw : w &&& 0xF0FF = _ := eq_of_beq h
    simp [decodeWord, decodeFamilyF, opField_of_masked hw rfl, nnField_of_masked hw rfl, toNat_opField, toNat_nnField, rowOf]

open Laws in
theorem accepts_encode (i : Instr) : (rowOf i).accepts (encode i) = true := by
  cases i
  exacts [TableRow.cls, TableRow.ret, TableRow.jp _, TableRow.call _, TableRow.seImm _ _, TableRow.sneImm _ _,
    TableRow.seReg _ _, TableRow.ldImm _ _, TableRow.addImm _ _, TableRow.ldReg _ _, TableRow.orReg _ _, TableRow.andReg _ _,
    TableRow.xorReg _ _, TableRow.addReg _ _, TableRow.subReg _ _, TableRow.shr _ _, TableRow.subnReg _ _, TableRow.shl _ _,
    TableRow.sneReg _ _, TableRow.ldI _, TableRow.jpV0 _, TableRow.rnd _ _, TableRow.drw _ _ _, TableRow.skp _, TableRow.sknp _,
    TableRow.ldVxDt _, TableRow.ldVxK _, TableRow.ldDtVx _, TableRow.ldStVx _, TableRow.addI _, TableRow.ldF _, TableRow.ldB _,
    TableRow.storeRegs _, TableRow.loadRegs _]

theorem accepts_of_decodeWord (h : decodeWord w = .ok i) : (rowOf i).accepts w = true := by
  rw [← encode_of_decodeWord h]
  exact accepts_encode i

/-- An instruction has the row of its representative, whatever its operands (R75). -/
theorem rowOf_mem_opcodeTable (i : Instr) : rowOf i ∈ opcodeTable := by
  cases i <;> simp [opcodeTable, rowRepresentatives, rowOf]

/-- No two rows accept the same word, as the decoder gives it one instruction only. -/
theorem rowOf_eq_of_accepts {k : Instr} (h : decodeWord w = .ok i) (hk : (rowOf k).accepts w = true) : rowOf k = rowOf i := by
  obtain ⟨j, hj, hrow⟩ := exists_decodeWord_of_accepts hk
  obtain rfl : j = i := Except.ok.inj (hj.symm.trans h)
  exact hrow.symm

theorem exists_rowOf_of_mem {r : Row} (h : r ∈ opcodeTable) : ∃ k, rowOf k = r := by
  obtain ⟨k, -, hk⟩ := List.mem_map.1 h
  exact ⟨k, hk⟩

/-! ## The illegal words -/

/-- Family 8 refuses the nibbles that no arm names (R77). -/
theorem decodeFamily8_eq_error_iff :
    decodeFamily8 w = .error (.illegalOpcode w) ↔ (nField w).toNat ∈ [0x8, 0x9, 0xA, 0xB, 0xC, 0xD, 0xF] := by
  unfold decodeFamily8
  split
  case h_10 =>
    have := (nField w).isLt
    simp only [imp_false, List.mem_cons, List.not_mem_nil, or_false, true_iff] at *
    omega
  all_goals simp [*]

theorem decodeFamilyE_eq_error_iff : decodeFamilyE w = .error (.illegalOpcode w) ↔ (nnField w).toNat ∉ [0x9E, 0xA1] := by
  unfold decodeFamilyE
  split <;> simp_all

theorem decodeFamilyF_eq_error_iff :
    decodeFamilyF w = .error (.illegalOpcode w) ↔
      (nnField w).toNat ∉ [0x07, 0x0A, 0x15, 0x18, 0x1E, 0x29, 0x33, 0x55, 0x65] := by
  unfold decodeFamilyF
  split <;> simp_all

end Sys2Proof
end

section

/-! What spec/30_encoding.md says of the decoder as a whole: the round trips of R82, its agreement with the table of R75, and the
illegal words of R77. -/

namespace Sys2Proof.Machine

/-- Settles O2, by the round trip through the word; the two bytes form that word again. -/
theorem decodeOfEncodeIsTheInstruction : Obligations.DecodeOfEncodeIsTheInstruction := by
  intro i rest
  refine ⟨decodeWord_encode i, ?_⟩
  rw [← highByte_eq_ofNat, ← lowByte_eq_ofNat]
  exact decode_bytes_of_decodeWord (decodeWord_encode i) rest

/-- Settles O3, family by family of the decoder. -/
theorem encodeOfDecodeIsTheWord : Obligations.EncodeOfDecodeIsTheWord :=
  fun _ _ => encode_of_decodeWord

/-- Settles O4: a word that decodes is the encoding of its instruction, so that instruction's row accepts it, and any row that does
decodes it to one of its own. -/
theorem decoderAgreesWithTheOpcodeTable : Obligations.DecoderAgreesWithTheOpcodeTable := by
  constructor
  · intro w i h
    refine ⟨rowOf_mem_opcodeTable i, fun r hr => ⟨fun hacc => ?_, fun heq => ?_⟩⟩
    · obtain ⟨k, rfl⟩ := exists_rowOf_of_mem hr
      exact rowOf_eq_of_accepts h hacc
    · rw [heq]
      exact accepts_of_decodeWord h
  · intro w r hr hacc
    obtain ⟨k, rfl⟩ := exists_rowOf_of_mem hr
    obtain ⟨j, hj, -⟩ := exists_decodeWord_of_accepts hacc
    exact ⟨j, hj⟩

/-- Settles O5, family by family: families 0, 5, 8, 9, E and F refuse what R77 lists of them, and every other family decodes. -/
theorem illegalWordsAreExactlyTheListed : Obligations.IllegalWordsAreExactlyTheListed := by
  intro w
  rw [← toNat_opField, ← toNat_nField, ← toNat_nnField]
  unfold decodeWord
  split
  case h_1 hop =>
    simp only [hop, ← BitVec.toNat_inj]
    split_ifs <;> simp_all
  case h_6 hop | h_10 hop => simp [hop, ← BitVec.toNat_inj]
  case h_9 hop => simp [hop, decodeFamily8_eq_error_iff]
  case h_15 hop => simp [hop, decodeFamilyE_eq_error_iff]
  case h_16 =>
    have hop : (opField w).toNat = 0xF := by
      have := (opField w).isLt
      simp only [imp_false] at *
      omega
    simp [hop, decodeFamilyF_eq_error_iff]
  case h_2 hop | h_3 hop | h_4 hop | h_5 hop | h_7 hop | h_8 hop | h_11 hop | h_12 hop | h_13 hop | h_14 hop => simp [hop]

/-- Settles O1: each word is the encoding of its instruction, and so decodes to it. -/
theorem wordsOfTheTableDecode : Obligations.WordsOfTheTableDecode :=
  ⟨decodeWord_encode .cls, decodeWord_encode .ret, decodeWord_encode (.jp 0xABC), decodeWord_encode (.seImm 0xA 0x42),
    decodeWord_encode (.addReg 0xA 0xB), decodeWord_encode (.shr 0x4 0xA), decodeWord_encode (.jpV0 0xFFF),
    decodeWord_encode (.rnd 0x0 0x0F), decodeWord_encode (.drw 0x1 0x2 0xF), decodeWord_encode (.skp 0x5),
    decodeWord_encode (.ldB 0x5), decodeWord_encode (.addI 0x2)⟩

end Sys2Proof.Machine
end

section

/-! The CYCLE event (spec/40_cycle_fetch_decode.md R90 to R94): its gate, the two halts that leave `pc`, and the step that takes a CYCLE
from the event list and runs an instruction. -/

namespace Sys2Proof.Machine

variable {s : State}

/-! ## The gate -/

/-- A CYCLE changes nothing unless Running and Executing (R90). -/
theorem handle_cycle_of_gated (h : s.mode ≠ .running ∨ s.status ≠ .executing) : handle .cycle s = .next s :=
  if_neg fun ⟨hmode, hexec⟩ => h.elim (absurd hmode) (absurd hexec)

/-- Running and Executing, a CYCLE is one step of the Engine (R90). -/
theorem handle_cycle_of_executing (hmode : s.mode = .running) (hexec : s.status = .executing) : handle .cycle s = stepEngine s :=
  if_pos ⟨hmode, hexec⟩

/-- Settles O9, by the two sides of the gate. -/
theorem cycleIsGated : Obligations.CycleIsGated :=
  fun _ => ⟨handle_cycle_of_gated, handle_cycle_of_executing⟩

/-! ## The halts before decode -/

/-- At or past the end of the program the Engine halts, with nothing read (R91). -/
theorem stepEngine_of_end (h : s.progEnd ≤ s.pc.toNat) : stepEngine s = s.raise (.endOfProgram s.pc) :=
  if_pos h

/-- Below the end of the program, a read at `pc` that faults halts the Engine with that fault (R92). -/
theorem stepEngine_of_fetch_fault {hl : Halt} (hend : s.pc.toNat < s.progEnd) (hread : s.memRead2 s.pc.toNat = .error hl) :
    stepEngine s = s.raise hl := by
  rw [stepEngine, if_neg (by omega), hread]

/-- Settles O10, by the Engine's first test. -/
theorem endOfProgramHaltsBeforeFetch : Obligations.EndOfProgramHaltsBeforeFetch := by
  intro s hmode hexec hend
  rw [handle_cycle_of_executing hmode hexec, stepEngine_of_end hend, State.raise_eq]

/-- Settles O12: the low byte of the word at 4095 would lie at 4096. -/
theorem fetchFaultsAtTheLastAddress : Obligations.FetchFaultsAtTheLastAddress := by
  intro s hmode hexec hend hpc
  have hread : s.memRead2 s.pc.toNat = .error (.addressOutOfRange 4096) := by rw [hpc, State.memRead2_last]
  rw [handle_cycle_of_executing hmode hexec, stepEngine_of_fetch_fault hend hread, State.raise_eq]

/-! ## The step that runs an instruction -/

/-- Handling the next event leaves the tail of the event list, whether or not the list held it (log entry 1). -/
theorem State.nextEvent_snd (s : State) : s.nextEvent.2 = { s with events := s.events.tail } := by
  cases hevents : s.events with
  | nil => rw [State.nextEvent_nil s hevents, List.tail_nil, ← hevents]
  | cons e es => rw [State.nextEvent_cons s hevents, List.tail_cons]

/-- When the next event is a CYCLE, a step handles it in the state without it (R7; log entry 1). -/
theorem step_of_cycleNext (h : s.CycleNext) : step s = handle .cycle { s with events := s.events.tail } := by
  have hevent : s.nextEvent.1 = .cycle := h
  rw [step_eq_handle_nextEvent, hevent, State.nextEvent_snd]

/-- Settles O7: the step is a CYCLE in the state without that event, and the event list has no part in what is fetched. -/
theorem stepRunsTheDecodedInstruction : Obligations.StepRunsTheDecodedInstruction := by
  rintro s i ⟨hmode, hexec, hcycle⟩ hend hpc hdecode
  have hfetch : handle .cycle { s with events := s.events.tail } =
      runWord (s.wordAt s.pc.toNat) { s with pc := s.pc + 2, events := s.events.tail } :=
    handle_cycle_of_fetch (s := { s with events := s.events.tail }) hmode hexec hend hpc
  have hword : decodeWord (s.wordAt s.pc.toNat) = .ok i := by rwa [State.wordAt, wordOfBytes_eq_ofNat]
  rw [step_of_cycleNext hcycle, hfetch, runWord_of_decode hword]

end Sys2Proof.Machine
end

section

/-! Control flow (spec/41_control_flow.md R101 to R107): the jump, the call and the return, each with the fault that the full or the
empty stack raises, and the skips that compare registers. -/

namespace Sys2Proof.Machine

variable {s : State}

/-! ## Jump -/

theorem toNat_zextImm (nnn : Imm12) : (zextImm nnn).toNat = nnn.toNat :=
  BitVec.toNat_setWidth_of_le (by decide)

/-- Settles O13: the target is the immediate, zero-extended. -/
theorem jumpGoesToItsAddress : Obligations.JumpGoesToItsAddress := by
  intro nnn s
  exact ⟨decodeWord_encode (.jp nnn), { s with pc := zextImm nnn }, rfl, toNat_zextImm nnn, rfl⟩

/-! ## Call and return -/

theorem State.push_of_full (h : s.sp.val = 16) (a : Word) : s.push a = none := by
  rcases s.push_spec a with ⟨-, hpush⟩ | ⟨hroom, -⟩
  · exact hpush
  · omega

theorem State.push_of_room (h : s.sp.val < 16) (a : Word) :
    s.push a = some { s with stk := s.stk.set s.sp.val a, sp := ⟨s.sp.val + 1, by omega⟩ } := by
  rcases s.push_spec a with ⟨hfull, -⟩ | ⟨_, hpush⟩
  · omega
  · exact hpush

theorem State.pop_of_empty (h : s.sp.val = 0) : s.pop = none := by
  rcases s.pop_spec with ⟨-, hpop⟩ | ⟨hpos, -⟩
  · exact hpop
  · omega

theorem State.pop_of_pos (h : 0 < s.sp.val) :
    s.pop = some (s.stk[s.sp.val - 1], { s with sp := ⟨s.sp.val - 1, by omega⟩ }) := by
  rcases s.pop_spec with ⟨hempty, -⟩ | ⟨_, hpop⟩
  · omega
  · exact hpop

/-- With 16 entries held a call faults (R102). -/
theorem exec_call_of_full (h : s.sp.val = 16) (nnn : Imm12) :
    exec (.call nnn) s = .next { s with status := .halted (.stackOverflow (s.pc - 2)) } := by
  simp only [exec, execCall, State.push_of_full h, State.raise_eq, State.instrAddr]

/-- With room a call pushes `pc` and jumps (R102). -/
theorem exec_call_of_room (h : s.sp.val < 16) (nnn : Imm12) :
    exec (.call nnn) s =
      .next { s with pc := zextImm nnn, sp := ⟨s.sp.val + 1, by omega⟩, stk := s.stk.set s.sp.val s.pc } := by
  simp only [exec, execCall, State.push_of_room h]

/-- With nothing to pop a return faults (R103). -/
theorem exec_ret_of_empty (h : s.sp.val = 0) : exec .ret s = .next { s with status := .halted (.stackUnderflow (s.pc - 2)) } := by
  simp only [exec, execRet, State.pop_of_empty h, State.raise_eq, State.instrAddr]

/-- With an entry a return pops it into `pc` (R103). -/
theorem exec_ret_of_pos (h : 0 < s.sp.val) :
    exec .ret s = .next { s with pc := s.stk[s.sp.val - 1], sp := ⟨s.sp.val - 1, by omega⟩ } := by
  simp only [exec, execRet, State.pop_of_pos h]

/-- Settles O14, by the call's two fates: the stack is full, or the return address goes into entry `sp`. -/
theorem callPushesTheReturnAddress : Obligations.CallPushesTheReturnAddress := by
  intro nnn s
  refine ⟨decodeWord_encode (.call nnn), fun hfull => exec_call_of_full hfull nnn, fun hroom => ?_⟩
  refine ⟨_, exec_call_of_room hroom nnn, toNat_zextImm nnn, rfl, fun j hj => ?_, rfl⟩
  simp only [Vector.getElem_set, eq_comm (a := j)]

/-- Settles O15, by the return's two fates: the stack is empty, or the entry below `sp` goes into `pc`. -/
theorem returnPopsTheStack : Obligations.ReturnPopsTheStack := by
  intro s
  refine ⟨decodeWord_encode .ret, exec_ret_of_empty, fun hpos => ?_⟩
  exact ⟨_, exec_ret_of_pos hpos, Nat.sub_add_cancel hpos, fun _ => rfl, rfl⟩

/-! ## Skips -/

theorem State.skipIf_eq (s : State) (c : Bool) : s.skipIf c = { s with pc := if c then s.pc + 2 else s.pc } := by
  rw [State.skipIf_only_pc, State.skipIf_pc]

/-- A skip on equal bytes (R104, R106). -/
theorem State.skipIf_beq (s : State) (a b : Byte) : s.skipIf (a == b) = { s with pc := if a = b then s.pc + 2 else s.pc } := by
  simp only [State.skipIf_eq, beq_iff_eq]

/-- A skip on different bytes (R105, R107). -/
theorem State.skipIf_bne (s : State) (a b : Byte) : s.skipIf (a != b) = { s with pc := if a = b then s.pc else s.pc + 2 } := by
  simp only [State.skipIf_eq, bne_iff_ne, ite_not]

/-- Settles O16, by the skip on equal and on different bytes. -/
theorem immediateSkipsCompareTheRegister : Obligations.ImmediateSkipsCompareTheRegister := by
  intro x nn s
  exact ⟨decodeWord_encode (.seImm x nn), decodeWord_encode (.sneImm x nn), congrArg _ (s.skipIf_beq _ _),
    congrArg _ (s.skipIf_bne _ _)⟩

/-- In families 5 and 9 the decoder refuses every low nibble but 0 (R77, R106, R107). -/
theorem decodeWord_formatXYN_eq_error {op n : Nibble} (hop : op = 0x5 ∨ op = 0x9) (hn : n ≠ 0) (x y : Reg) :
    decodeWord (formatXYN op x y n) = .error (.illegalOpcode (formatXYN op x y n)) := by
  rcases hop with rfl | rfl
  · simpa [decodeWord] using hn
  · simpa [decodeWord] using hn

theorem decodeWord_formatXYN_ne_ok {op n : Nibble} (hop : op = 0x5 ∨ op = 0x9) (hn : n ≠ 0) (x y : Reg) (i : Instr) :
    decodeWord (formatXYN op x y n) ≠ .ok i := by
  rw [decodeWord_formatXYN_eq_error hop hn]
  exact nofun

/-- Settles O17, by the same two skips; another low nibble is illegal in both families. -/
theorem registerSkipsCompareTwoRegisters : Obligations.RegisterSkipsCompareTwoRegisters := by
  intro x y s
  have hillegal : ∀ n : Nibble, n ≠ 0 → ∀ i,
      decodeWord (formatXYN 0x5 x y n) ≠ .ok i ∧ decodeWord (formatXYN 0x9 x y n) ≠ .ok i := fun n hn i =>
    ⟨decodeWord_formatXYN_ne_ok (.inl rfl) hn x y i, decodeWord_formatXYN_ne_ok (.inr rfl) hn x y i⟩
  exact ⟨decodeWord_encode (.seReg x y), decodeWord_encode (.sneReg x y), hillegal, congrArg _ (s.skipIf_beq _ _),
    congrArg _ (s.skipIf_bne _ _)⟩

end Sys2Proof.Machine
end

section

/-! Register load and arithmetic (spec/42_arithmetic.md R112 to R122): the byte operations as numbers, the instructions that write one
register, and those that write a flag beside it in the order VF_ORDER says (R111). -/

namespace Sys2Proof.Machine

/-! ## The byte operations as numbers -/

/-- The sum wraps at 256 (R118). -/
theorem byte_add_eq (a b : Byte) : a + b = BitVec.ofNat 8 ((a.toNat + b.toNat) % 256) := by
  apply BitVec.eq_of_toNat_eq
  simp

/-- The difference wraps at 256 (R119, R121). -/
theorem byte_sub_eq (a b : Byte) : a - b = BitVec.ofNat 8 ((256 + a.toNat - b.toNat) % 256) := by
  apply BitVec.eq_of_toNat_eq
  have := b.isLt
  simp only [BitVec.toNat_sub, BitVec.toNat_ofNat]
  omega

/-- A right shift halves (R120). -/
theorem byte_shiftRight_one_eq (a : Byte) : a >>> 1 = BitVec.ofNat 8 (a.toNat / 2) := by
  apply BitVec.eq_of_toNat_eq
  have := a.isLt
  simp only [BitVec.toNat_ushiftRight, Nat.shiftRight_one, BitVec.toNat_ofNat]
  omega

/-- A left shift doubles and wraps at 256 (R122). -/
theorem byte_shiftLeft_one_eq (a : Byte) : a <<< 1 = BitVec.ofNat 8 (2 * a.toNat % 256) := by
  apply BitVec.eq_of_toNat_eq
  simp only [BitVec.toNat_shiftLeft, Nat.shiftLeft_eq, BitVec.toNat_ofNat]
  omega

theorem carryOut_iff (a b : Byte) : carryOut a b = true ↔ 255 < a.toNat + b.toNat := decide_eq_true_iff

theorem noBorrow_iff (a b : Byte) : noBorrow a b = true ↔ b.toNat ≤ a.toNat := decide_eq_true_iff

/-- The bit dropped by a right shift is the remainder of the halving (R120). -/
theorem lowBit_iff (a : Byte) : lowBit a = true ↔ a.toNat % 2 = 1 := by
  simp [lowBit, BitVec.getLsbD, Nat.testBit_zero]

/-- The bit dropped by a left shift says that the double leaves the byte (R122). -/
theorem highBit_iff (a : Byte) : highBit a = true ↔ 128 ≤ a.toNat := by
  have := a.isLt
  simp only [highBit, BitVec.getLsbD, Nat.testBit_eq_decide_div_mod_eq, decide_eq_true_eq]
  omega

/-! ## One register written -/

theorem State.reg_setReg_self (s : State) (x : Reg) (v : Byte) : (s.setReg x v).reg x = v := by
  rw [State.reg_setReg, if_pos rfl]

/-- A register write changes no other register and no other field (R10). -/
theorem State.setReg_frame (s : State) (x : Reg) (v : Byte) :
    (∀ r, r ≠ x → (s.setReg x v).reg r = s.reg r) ∧ s.setReg x v = { s with x := (s.setReg x v).x } := by
  refine ⟨fun r hr => ?_, rfl⟩
  rw [State.reg_setReg, if_neg hr]

/-- Settles O18: both instructions end in one register write, read back as `reg_setReg` says. -/
theorem loadsWriteTheRegister : Obligations.LoadsWriteTheRegister := by
  intro x y nn s
  exact ⟨decodeWord_encode (.ldImm x nn), decodeWord_encode (.ldReg x y), ⟨_, rfl, fun r => s.reg_setReg x r nn, rfl⟩,
    ⟨_, rfl, fun r => s.reg_setReg x r (s.reg y), rfl⟩⟩

/-- Settles O19: the one register written takes the byte sum. -/
theorem addImmediateWrapsWithoutFlag : Obligations.AddImmediateWrapsWithoutFlag := by
  intro x nn s
  refine ⟨decodeWord_encode (.addImm x nn), _, rfl, ?_, s.setReg_frame x _⟩
  rw [State.reg_setReg_self, BitVec.toNat_add]

/-- Settles O20: the one register written takes the two bytes combined bit by bit. -/
theorem logicIsBitwiseWithoutFlag : Obligations.LogicIsBitwiseWithoutFlag := by
  intro x y s
  refine ⟨decodeWord_encode (.orReg x y), decodeWord_encode (.andReg x y), decodeWord_encode (.xorReg x y),
    ⟨_, rfl, fun k => ?_, s.setReg_frame x _⟩, ⟨_, rfl, fun k => ?_, s.setReg_frame x _⟩,
    ⟨_, rfl, fun k => ?_, s.setReg_frame x _⟩⟩
  · rw [State.reg_setReg_self, BitVec.getLsbD_or]
  · rw [State.reg_setReg_self, BitVec.getLsbD_and]
  · rw [State.reg_setReg_self, BitVec.getLsbD_xor]

/-! ## A result and a flag -/

/-- An instruction that ends in a result and a flag, with the result named as a number and the flag as a condition (R111). -/
theorem exec_writes_result {i : Instr} {s : State} {x : Reg} {v w : Byte} {f : Bool} {p : Prop} [Decidable p]
    (h : exec i s = .next (s.setResult x v f)) (hv : v = w) (hf : f = true ↔ p) :
    ∃ t, exec i s = .next t ∧ ResultAndFlag s t x w p := by
  subst hv
  obtain ⟨hreg, hframe⟩ := s.setResult_spec x v f
  simp only [hf] at hreg
  exact ⟨_, h, hreg, hframe⟩

theorem exec_addReg_writes (x y : Reg) (s : State) :
    ∃ t, exec (.addReg x y) s = .next t ∧
      ResultAndFlag s t x (BitVec.ofNat 8 (((s.reg x).toNat + (s.reg y).toNat) % 256)) (255 < (s.reg x).toNat + (s.reg y).toNat) :=
  exec_writes_result rfl (byte_add_eq _ _) (carryOut_iff _ _)

theorem exec_subReg_writes (x y : Reg) (s : State) :
    ∃ t, exec (.subReg x y) s = .next t ∧
      ResultAndFlag s t x (BitVec.ofNat 8 ((256 + (s.reg x).toNat - (s.reg y).toNat) % 256)) ((s.reg y).toNat ≤ (s.reg x).toNat) :=
  exec_writes_result rfl (byte_sub_eq _ _) (noBorrow_iff _ _)

theorem exec_subnReg_writes (x y : Reg) (s : State) :
    ∃ t, exec (.subnReg x y) s = .next t ∧
      ResultAndFlag s t x (BitVec.ofNat 8 ((256 + (s.reg y).toNat - (s.reg x).toNat) % 256)) ((s.reg x).toNat ≤ (s.reg y).toNat) :=
  exec_writes_result rfl (byte_sub_eq _ _) (noBorrow_iff _ _)

theorem exec_shr_writes (x y : Reg) (s : State) :
    ∃ t, exec (.shr x y) s = .next t ∧
      ResultAndFlag s t x (BitVec.ofNat 8 ((s.reg x).toNat / 2)) ((s.reg x).toNat % 2 = 1) :=
  exec_writes_result rfl (byte_shiftRight_one_eq _) (lowBit_iff _)

theorem exec_shl_writes (x y : Reg) (s : State) :
    ∃ t, exec (.shl x y) s = .next t ∧
      ResultAndFlag s t x (BitVec.ofNat 8 (2 * (s.reg x).toNat % 256)) (128 ≤ (s.reg x).toNat) :=
  exec_writes_result rfl (byte_shiftLeft_one_eq _) (highBit_iff _)

/-- Settles O21, by the addition's result and carry. -/
theorem addSetsTheCarry : Obligations.AddSetsTheCarry := by
  intro x y s
  exact ⟨decodeWord_encode (.addReg x y), exec_addReg_writes x y s⟩

/-- Settles O22, by the two subtractions' results and flags. -/
theorem subtractionsSetNoBorrow : Obligations.SubtractionsSetNoBorrow := by
  intro x y s
  exact ⟨decodeWord_encode (.subReg x y), decodeWord_encode (.subnReg x y), exec_subReg_writes x y s, exec_subnReg_writes x y s⟩

/-- Settles O23, by the two shifts' results and flags, whatever the field `Y` is. -/
theorem shiftsSetTheDroppedBit : Obligations.ShiftsSetTheDroppedBit := by
  intro x y s
  exact ⟨decodeWord_encode (.shr x y), decodeWord_encode (.shl x y), exec_shr_writes x y s, exec_shl_writes x y s⟩

/-! ## Register 15 as the destination -/

/-- With `X = 15` result and flag compete for one register, and VF_ORDER decides (R111). -/
theorem ResultAndFlag.reg_flagReg {s t : State} {v : Byte} {p : Prop} [Decidable p] (h : ResultAndFlag s t 15 v p) :
    (∀ r, r ≠ 15 → t.reg r = s.reg r) ∧ (s.cfg.vfOrder = .flagLast → t.reg 15 = if p then 1 else 0) ∧
      (s.cfg.vfOrder = .resultLast → t.reg 15 = v) := by
  obtain ⟨hreg, -⟩ := h
  refine ⟨fun r hr => ?_, fun hflag => ?_, fun hresult => ?_⟩
  · rw [hreg, if_neg fun h15 => hr h15.1, if_neg hr]
  · rw [hreg, if_pos ⟨rfl, .inr hflag⟩]
  · simp [hreg, hresult]

/-- The same with result and flag as numbers. -/
theorem exec_flagReg_ends {i : Instr} {s : State} {n flag : Nat} {p : Prop} [Decidable p]
    (h : ∃ t, exec i s = .next t ∧ ResultAndFlag s t 15 (BitVec.ofNat 8 n) p) (hn : n < 256) (hflag : (if p then 1 else 0) = flag) :
    ∃ t, exec i s = .next t ∧ (∀ r, r ≠ 15 → t.reg r = s.reg r) ∧
      (s.cfg.vfOrder = .flagLast → (t.reg 15).toNat = flag) ∧ (s.cfg.vfOrder = .resultLast → (t.reg 15).toNat = n) := by
  obtain ⟨t, hexec, hwrites⟩ := h
  obtain ⟨hother, hflagLast, hresultLast⟩ := hwrites.reg_flagReg
  refine ⟨t, hexec, hother, fun hv => ?_, fun hv => ?_⟩
  · rw [hflagLast hv, apply_ite BitVec.toNat]
    exact hflag
  · rw [hresultLast hv, BitVec.toNat_ofNat]
    exact Nat.mod_eq_of_lt hn

/-- Settles O24: each instruction's result and flag at `X = 15`, the flag as the number its condition stands for. -/
theorem flagRegisterAsDestinationFollowsVfOrder : Obligations.FlagRegisterAsDestinationFollowsVfOrder := by
  intro y s a b ends
  have ha : a < 256 := (s.reg 15).isLt
  have hb : b < 256 := (s.reg y).isLt
  refine ⟨?_, ?_, ?_, ?_, ?_⟩
  · have hcarry : (if 255 < a + b then 1 else 0) = (a + b) / 256 := by split <;> omega
    exact exec_flagReg_ends (exec_addReg_writes 15 y s) (Nat.mod_lt _ (by decide)) hcarry
  · exact exec_flagReg_ends (exec_subReg_writes 15 y s) (Nat.mod_lt _ (by decide)) rfl
  · have hlow : (if a % 2 = 1 then 1 else 0) = a % 2 := by split <;> omega
    exact exec_flagReg_ends (exec_shr_writes 15 y s) ((Nat.div_le_self a 2).trans_lt ha) hlow
  · exact exec_flagReg_ends (exec_subnReg_writes 15 y s) (Nat.mod_lt _ (by decide)) rfl
  · have hhigh : (if 128 ≤ a then 1 else 0) = a / 128 := by split <;> omega
    exact exec_flagReg_ends (exec_shl_writes 15 y s) (Nat.mod_lt _ (by decide)) hhigh

end Sys2Proof.Machine
end

section

/-! The index register and the indexed jump (spec/43_index_addressing.md R125 to R127): the index sum and the jump target as numbers, and
the fault of a target above 4095. -/

namespace Sys2Proof.Machine

variable {s : State}

/-! ## Index register -/

/-- Settles O25: the index takes the immediate, zero-extended. -/
theorem loadIndexSetsIdx : Obligations.LoadIndexSetsIdx := by
  intro nnn s
  exact ⟨decodeWord_encode (.ldI nnn), { s with idx := zextImm nnn }, rfl, toNat_zextImm nnn, rfl⟩

theorem toNat_zextByte (b : Byte) : (zextByte b).toNat = b.toNat :=
  BitVec.toNat_setWidth_of_le (by decide)

/-- Masking a word to 12 bits is the remainder modulo 4096 (R126). -/
theorem toNat_and_0x0FFF (w : Word) : (w &&& 0x0FFF).toNat = w.toNat % 4096 := by
  rw [BitVec.toNat_and]
  exact Nat.and_two_pow_sub_one_eq_mod w.toNat 12

/-- The sum masked to 12 bits is the sum modulo 4096: a wrap of the 16-bit addition loses only multiples of 4096 (R126). -/
theorem toNat_add_zextByte_masked (a : Word) (b : Byte) : ((a + zextByte b) &&& 0x0FFF).toNat = (a.toNat + b.toNat) % 4096 := by
  rw [toNat_and_0x0FFF, BitVec.toNat_add, toNat_zextByte]
  exact Nat.mod_mod_of_dvd _ (by decide)

/-- Settles O26: the masked sum goes into the index, and no flag is written. -/
theorem addToIndexWrapsAtTwelveBits : Obligations.AddToIndexWrapsAtTwelveBits := by
  intro x s
  exact ⟨decodeWord_encode (.addI x), _, rfl, toNat_add_zextByte_masked s.idx (s.reg x), rfl⟩

/-! ## Indexed jump -/

/-- With a target above the last address the indexed jump faults (R127). -/
theorem exec_jpV0_of_gt {nnn : Imm12} (h : 4095 < nnn.toNat + (s.reg 0).toNat) :
    exec (.jpV0 nnn) s = .next { s with status := .halted (.addressOutOfRange (nnn.toNat + (s.reg 0).toNat)) } :=
  if_pos h

/-- With a target in the address space the indexed jump goes there (R127). -/
theorem exec_jpV0_of_le {nnn : Imm12} (h : nnn.toNat + (s.reg 0).toNat ≤ 4095) :
    exec (.jpV0 nnn) s = .next { s with pc := BitVec.ofNat 16 (nnn.toNat + (s.reg 0).toNat) } :=
  if_neg (Nat.not_le_of_lt (Nat.lt_succ_of_le h))

/-- Settles O27, by the jump's two fates: the target is above 4095, or it fits the program counter. -/
theorem indexedJumpAddsRegisterZero : Obligations.IndexedJumpAddsRegisterZero := by
  intro nnn s
  refine ⟨decodeWord_encode (.jpV0 nnn), exec_jpV0_of_gt, fun htarget => ⟨_, exec_jpV0_of_le htarget, ?_, rfl⟩⟩
  exact Nat.mod_eq_of_lt (htarget.trans_lt (by decide))

end Sys2Proof.Machine
end

section

/-! The random instruction (spec/44_random.md R130, R131): a draw changes the count of draws alone, and the masked byte ends in one
register. -/

namespace Sys2Proof.Machine

/-- A masked byte is at most the mask (R130). -/
theorem toNat_and_le_mask (b nn : Byte) : (b &&& nn).toNat ≤ nn.toNat := by
  rw [BitVec.toNat_and]
  exact Nat.and_le_right

/-- A draw gives the byte of the next count and counts itself; nothing else changes (R131). -/
theorem State.draw_eq (s : State) : s.draw = (Config.draw8 s.draws, { s with draws := s.draws + 1 }) := rfl

/-- CXNN is one register write after the draw (R130). -/
theorem exec_rnd (x : Reg) (nn : Byte) (s : State) : exec (.rnd x nn) s = .next (s.draw.2.setReg x (s.draw.1 &&& nn)) := rfl

/-- Settles O28: the one register written takes the drawn byte masked, and the frame is that of the write after the draw. -/
theorem randomIsAMaskedFreeByte : Obligations.RandomIsAMaskedFreeByte := by
  intro x nn s
  obtain ⟨hother, hframe⟩ := s.draw.2.setReg_frame x (s.draw.1 &&& nn)
  have hreg : (s.draw.2.setReg x (s.draw.1 &&& nn)).reg x = Config.draw8 s.draws &&& nn := by
    rw [State.reg_setReg_self, State.draw_eq]
  refine ⟨decodeWord_encode (.rnd x nn), _, exec_rnd x nn s, hreg, ?_, hother, hframe⟩
  rw [hreg]
  exact toNat_and_le_mask _ nn

end Sys2Proof.Machine
end

section

/-! The framebuffer instructions (spec/45_display.md R133 to R137): the two fates of a DXYN, the flag it leaves, and what a second one
at the same place finds. -/

namespace Sys2Proof.Machine

variable {s t : State} {x y : Reg} {n : Nibble}

/-! ## Clearing -/

/-- Settles O29: every cell of the cleared framebuffer reads off. -/
theorem clearScreenTurnsEveryCellOff : Obligations.ClearScreenTurnsEveryCellOff := by
  intro s
  exact ⟨decodeWord_encode .cls, _, rfl, Screen.get_clear, rfl⟩

/-! ## Drawing -/

/-- With the last sprite byte above the last address DXYN faults (R137). -/
theorem exec_drw_of_gt (hn : 1 ≤ n.toNat) (h : 4095 < s.idx.toNat + n.toNat - 1) :
    exec (.drw x y n) s = .next { s with status := .halted (.addressOutOfRange (s.idx.toNat + n.toNat - 1)) } := by
  have hpos : n ≠ 0 := by rintro rfl; simp at hn
  have hlast : s.lastAddr n.toNat = s.idx.toNat + n.toNat - 1 := (Nat.add_sub_assoc hn _).symm
  rw [← hlast] at h ⊢
  exact (if_neg hpos).trans (s.checkLast_of_gt _ h)

/-- With no sprite byte, or all of them in the address space, DXYN draws (R134, R137). -/
theorem exec_drw_of_fits (h : n.toNat = 0 ∨ s.idx.toNat + n.toNat - 1 ≤ 4095) :
    exec (.drw x y n) s = .next (s.drawSprite (s.reg x) (s.reg y) (s.readBytes s.idx.toNat n.toNat)) := by
  by_cases hzero : n = 0
  · exact if_pos hzero
  · have hpos : n.toNat ≠ 0 := fun h0 => hzero (BitVec.eq_of_toNat_eq h0)
    have hlast : s.lastAddr n.toNat ≤ 4095 := by simp only [State.lastAddr]; omega
    exact (if_neg hzero).trans (s.checkLast_of_le _ hlast)

/-- A covered cell that was on raises the flag (R134, R136). -/
theorem State.flag_drawSprite_of_hit (s : State) (ox oy : Byte) {n : Nat} (hn : n ≤ 32)
    (hit : ∃ v u, s.Covers ox oy n v u ∧ Screen.get s.fb v u = true) :
    (s.drawSprite ox oy (s.readBytes s.idx.toNat n)).reg 15 = 1 := by
  rw [State.flag_drawSprite, if_pos rfl, (s.hit_drawSprite ox oy hn).2 hit]
  rfl

/-- With every covered cell off the flag is cleared (R134, R136). -/
theorem State.flag_drawSprite_of_miss (s : State) (ox oy : Byte) {n : Nat} (hn : n ≤ 32)
    (miss : ∀ v u, s.Covers ox oy n v u → Screen.get s.fb v u = false) :
    (s.drawSprite ox oy (s.readBytes s.idx.toNat n)).reg 15 = 0 := by
  have hno : ¬∃ v u, s.Covers ox oy n v u ∧ Screen.get s.fb v u = true := by
    rintro ⟨v, u, hcov, hon⟩
    exact Bool.false_ne_true ((miss v u hcov).symm.trans hon)
  rw [State.flag_drawSprite, if_pos rfl, Bool.eq_false_iff.2 (mt (s.hit_drawSprite ox oy hn).1 hno)]
  rfl

/-- Settles O30: a DXYN faults, or it draws, and `drawSprite` inverts the covered cells and sets the flag. -/
theorem drawXorsTheCoveredCells : Obligations.DrawXorsTheCoveredCells := by
  intro x y n s
  have hn : n.toNat ≤ 32 := by omega
  refine ⟨decodeWord_encode (.drw x y n), exec_drw_of_gt, fun hfits => ⟨_, exec_drw_of_fits hfits, fun v u => ?_,
    s.flag_drawSprite_of_hit _ _ hn, s.flag_drawSprite_of_miss _ _ hn, fun r hr => ?_, State.drawSprite_only ..⟩⟩
  · exact (s.get_drawSprite _ _ hn v u).trans (xor_iff_iff_not.symm.trans (xor_iff_not_iff _ _))
  · rw [State.flag_drawSprite, if_neg hr]

/-! ## Drawing twice -/

/-- A change of framebuffer and registers leaves every sprite covering the same cells (R134, R135). -/
theorem State.covers_of_frame (hframe : t = { s with fb := t.fb, x := t.x }) : t.Covers = s.Covers := by
  rw [hframe]
  rfl

/-- Inverting the cells of one set twice restores every cell (R134). -/
theorem Screen.eq_of_inverted_twice {f g h : Screen} {P : Fin 32 → Fin 64 → Prop}
    (hfg : ∀ v u, Screen.get g v u = true ↔ ¬(Screen.get f v u = true ↔ P v u))
    (hgh : ∀ v u, Screen.get h v u = true ↔ ¬(Screen.get g v u = true ↔ P v u)) : h = f := by
  refine Screen.ext_get fun v u => Bool.eq_iff_iff.2 ?_
  rw [hgh, hfg]
  tauto

/-- Settles O31: the second draw finds its operands unchanged and so covers the same cells, which the first draw has inverted. -/
theorem drawingTwiceRestoresTheScreen : Obligations.DrawingTwiceRestoresTheScreen := by
  intro x y n s hx hy hfits
  obtain ⟨-, -, hfirst⟩ := drawXorsTheCoveredCells x y n s
  obtain ⟨t, hexec, hcells, -, hmiss, hother, hframe⟩ := hfirst hfits
  have hidx : t.idx = s.idx := by rw [hframe]
  obtain ⟨-, -, hsecond⟩ := drawXorsTheCoveredCells x y n t
  rw [hother x hx, hother y hy, hidx, State.covers_of_frame hframe] at hsecond
  obtain ⟨u, hexec', hcells', hhit', -⟩ := hsecond hfits
  refine ⟨t, u, hexec, hexec', Screen.eq_of_inverted_twice hcells hcells', fun ⟨v, w, hcov⟩ hoff => ⟨hmiss hoff, ?_⟩⟩
  have hon : Screen.get t.fb v w = true := by
    rw [hcells, hoff v w hcov]
    simp [hcov]
  exact hhit' ⟨v, w, hcov, hon⟩

end Sys2Proof.Machine
end

section

/-! Key input (spec/46_key_input.md R140 to R146): a key test faults or skips by the latch, and a KEY event reports an invalid
index, sets the latch bit, or also resumes a key-wait. -/

namespace Sys2Proof.Machine

variable {s : State}

/-! ## Key tests -/

/-- An index above 15 faults, unreduced (R142). -/
theorem State.keyTest_of_gt {k : Byte} (h : 15 < k.toNat) (want : Bool) :
    s.keyTest k want = .next { s with status := .halted (.keyIndexOutOfRange k) } := by
  rcases s.keyTest_spec k want with ⟨-, hfault⟩ | ⟨hle, -⟩
  · exact hfault
  · omega

/-- An index below 16 survives the reduction to a key's four bits. -/
theorem State.keyDown_setWidth {k : Byte} (h : k.toNat < 16) : s.keyDown (k.setWidth 4) = s.key[k.toNat] := by
  have hkey : (k.setWidth 4).toNat = k.toNat := by rw [BitVec.toNat_setWidth, Nat.mod_eq_of_lt h]
  simp only [State.keyDown, hkey]

/-- A valid index skips when the latch bit is the one wanted (R140, R141). -/
theorem State.keyTest_of_lt {k : Byte} (h : k.toNat < 16) (want : Bool) :
    s.keyTest k want = .next { s with pc := if s.key[k.toNat] = want then s.pc + 2 else s.pc } := by
  rcases s.keyTest_spec k want with ⟨hgt, -⟩ | ⟨-, hskip⟩
  · omega
  · rw [hskip, State.keyDown_setWidth h, State.skipIf_eq]
    simp only [beq_iff_eq]

/-- Settles O32: EX9E tests for a pressed key and EXA1 for a released one, and both share the fault. -/
theorem keyTestsSkipByTheLatch : Obligations.KeyTestsSkipByTheLatch := by
  intro x s
  refine ⟨decodeWord_encode (.skp x), decodeWord_encode (.sknp x),
    fun hgt => ⟨State.keyTest_of_gt hgt true, State.keyTest_of_gt hgt false⟩,
    fun hlt => ⟨State.keyTest_of_lt hlt true, ?_⟩⟩
  refine (State.keyTest_of_lt hlt false).trans ?_
  simp only [← Bool.not_eq_true, ite_not]

/-! ## The KEY event -/

/-- KEY while Running with an index outside 0..15 is reported (R143). -/
theorem State.keyEvent_invalid {k : Int} (hmode : s.mode = .running) (hk : k < 0 ∨ 15 < k) (p : Bool) :
    s.keyEvent k p = s.emit (.diagInvalidKeyIndex k) := by
  simp only [State.keyEvent, hmode, if_pos hk]

/-- The latch follows the event, whether or not a key-wait ends (R144). -/
theorem State.keyDown_latch (s : State) (k j : Key) (p : Bool) : (s.latch k p).keyDown j = if j = k then p else s.keyDown j := by
  rw [← s.keyDown_setKey k j p]
  simp only [State.keyDown, State.latch_key, State.setKey_key]

theorem toNat_zextKey (k : Key) : (zextKey k).toNat = k.toNat :=
  BitVec.toNat_setWidth_of_le (by decide)

/-- Settles O33: the latch update resumes a wait exactly on the press of a released key, and otherwise sets the latch bit alone. -/
theorem keyEventLatchesAndResumes : Obligations.KeyEventLatchesAndResumes := by
  intro s k pressed hmode
  refine ⟨s.latch k pressed, congrArg _ (s.keyEvent_valid k pressed hmode), (s.keyDown_latch k · pressed), ?_, fun hno => ?_⟩
  · rintro r hwait rfl hup
    obtain ⟨hother, -⟩ := (s.setKey k true).setReg_frame r (zextKey k)
    have hreg : (((s.setKey k true).setReg r (zextKey k)).reg r).toNat = k.toNat := by
      rw [State.reg_setReg_self, toNat_zextKey]
    rw [s.latch_resumes hwait hup]
    exact ⟨hreg, hother, rfl, rfl, rfl⟩
  · rw [s.latch_only_key hno]
    rfl

/-- Settles O34: the event is answered by the report before any branch on the status. -/
theorem invalidKeyIndexIsReportedOnly : Obligations.InvalidKeyIndexIsReportedOnly := by
  intro s k pressed hmode hk
  exact congrArg _ (State.keyEvent_invalid hmode hk pressed)

end Sys2Proof.Machine
end

section

/-! The sound level (spec/60_exceptions.md R182): an instruction or an event either leaves the sound timer and the edges of the trace
alone, or writes the timer by `setSt`, which puts out the edge. -/

namespace Sys2Proof.Machine

variable {s t : State} {i : Instr}

/-! ## Ways to keep the alternation -/

/-- The alternation is a matter of the trace and the sound timer alone. -/
theorem State.SoundInv.of_eq (h : s.SoundInv) (hout : t.out = s.out) (hst : t.st = s.st) : t.SoundInv := by
  rwa [State.SoundInv, State.sound, hout, hst]

/-- An entry that is no edge leaves the level as it was. -/
theorem State.SoundInv.emit {e : Output} (h : s.SoundInv) (he : soundLevelFrom s.sound [e] = some s.sound) : (s.emit e).SoundInv := by
  rw [State.SoundInv, State.emit_out, soundLevelFrom_append, h]
  exact he

/-- LOAD and RESET_REQ put out the edge of clearing the sound timer (R182). -/
theorem State.SoundInv.clearRun (h : s.SoundInv) : s.clearRun.SoundInv :=
  (s.setSt_sound 0 h).of_eq rfl rfl

/-! ## An instruction keeps the alternation -/

/-- Only FX18 touches the sound timer or the trace (R25). -/
theorem Effect.soundInv (ef : Effect s t i) (h : s.SoundInv) : t.SoundInv := by
  obtain ⟨-, -, -, -, hwriter, -⟩ := ef.writtenAsNamed
  by_cases hkept : t.st = s.st ∧ t.out = s.out
  · exact h.of_eq hkept.2 hkept.1
  · obtain ⟨x, rfl⟩ := hwriter (not_and_or.1 hkept)
    have ht : t = s.setSt (s.reg x) := ef
    rw [ht]
    exact s.setSt_sound _ h

theorem exec_soundInv (h : s.SoundInv) (ht : exec i s = .next t) : t.SoundInv := by
  rcases exec_cases ht with ⟨hl, rfl⟩ | ef
  · exact h
  · exact ef.soundInv h

/-! ## An event keeps the alternation -/

/-- CYCLE: the gate, a halt and the fetch leave timer and trace alone; what is left is the instruction (R90 to R94). -/
theorem cycle_soundInv (h : s.SoundInv) (ht : handle .cycle s = .next t) : t.SoundInv := by
  rcases handle_cycle_cases ht with rfl | ⟨-, -, ⟨hl, rfl⟩ | ⟨-, -, ⟨hl, rfl⟩ | ⟨i, -, hrun⟩⟩⟩
  · exact h
  · exact h
  · exact h
  · have hfetched : ({ s with pc := s.pc + 2 } : State).SoundInv := h
    exact exec_soundInv hfetched hrun

theorem State.tick_soundInv (h : s.SoundInv) : s.tick.SoundInv := by
  cases hm : s.mode with
  | launcher => rwa [s.tick_launcher hm]
  | running => rw [s.tick_running hm]; exact (s.setSt_sound (countDown s.st) h).of_eq rfl rfl

theorem State.keyEvent_soundInv (h : s.SoundInv) (k : Int) (p : Bool) : (s.keyEvent k p).SoundInv := by
  rcases s.keyEvent_cases k p with hk | hk | ⟨-, j, hk⟩ <;> rw [hk]
  · exact h
  · exact h.emit rfl
  · rw [s.latch_only j p]; exact h

/-- LOAD is a no-op, clears the run with the edge, or adds a report that is no edge (R202 to R204). -/
theorem State.load_soundInv (h : s.SoundInv) (image : List Byte) : (s.load image).SoundInv := by
  cases hm : s.mode with
  | running => rwa [s.load_running image hm]
  | launcher =>
    by_cases hlen : image.length ≤ maxImage
    · rw [s.load_accepted image hm hlen]; exact h.clearRun.of_eq rfl rfl
    · rw [s.load_oversize image hm (by omega)]; exact h.emit rfl

theorem State.resetRequest_soundInv (h : s.SoundInv) : s.resetRequest.SoundInv := by
  cases hm : s.mode with
  | launcher => rwa [s.resetRequest_launcher hm]
  | running => rw [s.resetRequest_running hm]; exact h.clearRun.of_eq rfl rfl

theorem handle_soundInv {e : Event} (h : s.SoundInv) (ht : handle e s = .next t) : t.SoundInv := by
  cases e with
  | powerOn => cases ht
  | load image => cases ht; exact State.load_soundInv h image
  | resetReq => cases ht; exact State.resetRequest_soundInv h
  | cycle => exact cycle_soundInv h ht
  | tick => cases ht; exact State.tick_soundInv h
  | key k p => cases ht; exact State.keyEvent_soundInv h k p

/-- Settles O56, by the alternation's step for each event; taking the event off the list touches neither trace nor timer. -/
theorem soundEdgesAlternateForever : Obligations.SoundEdgesAlternateForever := by
  intro s t h hstep
  have htaken : s.nextEvent.2.SoundInv := h.of_eq s.nextEvent_out s.nextEvent_st
  exact handle_soundInv htaken hstep

end Sys2Proof.Machine
end

section

/-! Timers, key-wait and the memory instructions (spec/47_timer_memory.md R150 to R159): each of FX33, FX55 and FX65 checks its whole
range first, and then moves bytes between the registers and the memory at `idx`. -/

namespace Sys2Proof.Machine

variable {s : State} {x : Reg}

/-! ## Timers -/

/-- Settles O36: one register write, and one timer write. -/
theorem delayTimerIsReadAndSet : Obligations.DelayTimerIsReadAndSet := by
  intro x s
  exact ⟨decodeWord_encode (.ldVxDt x), decodeWord_encode (.ldDtVx x), ⟨_, rfl, fun r => s.reg_setReg x r s.dt, rfl⟩, rfl⟩

/-- The edges as the timer's values name them (R182). -/
theorem soundEdges_eq (old new : Byte) :
    soundEdges old new =
      if old.toNat = 0 ∧ 0 < new.toNat then [.soundOn] else if 0 < old.toNat ∧ new.toNat = 0 then [.soundOff] else [] := by
  have hzero : ∀ b : Byte, b = 0 ↔ b.toNat = 0 := fun b => BitVec.toNat_inj.symm
  simp only [soundEdges, ne_eq, hzero, Nat.pos_iff_ne_zero]

/-- Settles O38, by the edges of each change: on, off, and none where the timer is zero before and after or neither. -/
theorem soundTimerIsSetWithItsEdge : Obligations.SoundTimerIsSetWithItsEdge := by
  intro x s
  refine ⟨decodeWord_encode (.ldStVx x), s.setSt (s.reg x), rfl, rfl, fun hold hnew => ?_, fun hold hnew => ?_, fun hsame => ?_, rfl⟩
  · rw [State.setSt_out, soundEdges_eq, if_pos ⟨hold, hnew⟩]
  · rw [State.setSt_out, soundEdges_eq, if_neg (by omega), if_pos ⟨hold, hnew⟩]
  · rw [State.setSt_out, soundEdges_eq, if_neg (by omega), if_neg (by omega), List.append_nil]

/-! ## Key-wait -/

/-- FX0A steps back to itself and waits (R151). -/
theorem exec_ldVxK (x : Reg) (s : State) : exec (.ldVxK x) s = .next { s with pc := s.pc - 2, status := .waitingForKey x } := rfl

/-- Settles O37, by the equation of FX0A. -/
theorem keyWaitSuspendsAtItself : Obligations.KeyWaitSuspendsAtItself :=
  fun x s => ⟨decodeWord_encode (.ldVxK x), exec_ldVxK x s⟩

/-- Settles O35: the gate holds CYCLE off while the wait lasts, and the press that resumes it undoes the step back. -/
theorem keyWaitEndsWithTheKeyInTheRegister : Obligations.KeyWaitEndsWithTheKeyInTheRegister := by
  intro s x k hmode hexec hup
  obtain ⟨t, hpress, hlatch, hresume, -⟩ :=
    keyEventLatchesAndResumes { s with pc := s.pc - 2, status := .waitingForKey x } k true hmode
  obtain ⟨hreg, hother, hpc, hstatus, hframe⟩ := hresume x rfl rfl hup
  have hback : t.pc = s.pc := hpc.trans (BitVec.sub_add_cancel s.pc 2)
  refine ⟨_, t, exec_ldVxK x s, handle_cycle_of_gated (.inr nofun), hpress, hback, hstatus, fun r => ?_, fun j => ?_, ?_⟩
  · split
    next h => rw [h, hreg]
    next h => exact congrArg BitVec.toNat (hother r h)
  · rw [hlatch j]
    by_cases h : j = k
    · simp [h]
    · simp [h, State.keyDown]
  · rw [hframe, hback, hstatus, ← hexec]

/-! ## Font address -/

/-- Settles O39: five times a byte stays below 2^16. -/
theorem fontAddressIsFiveTimesTheRegister : Obligations.FontAddressIsFiveTimesTheRegister := by
  intro x s
  refine ⟨decodeWord_encode (.ldF x), _, rfl, ?_, rfl⟩
  have hfive : (5 * zextByte (s.reg x)).toNat = 5 * (s.reg x).toNat % 65536 := by rw [BitVec.toNat_mul, toNat_zextByte]; rfl
  rw [hfive]
  omega

/-! ## The memory range at `idx` -/

/-- With the last digit above the last address FX33 faults (R156, R57). -/
theorem exec_ldB_of_gt (h : 4095 < s.idx.toNat + 2) :
    exec (.ldB x) s = .next { s with status := .halted (.addressOutOfRange (s.idx.toNat + 2)) } :=
  s.checkLast_of_gt _ h

theorem exec_ldB_of_le (h : s.idx.toNat + 2 ≤ 4095) :
    exec (.ldB x) s = .next (s.writeBytes s.idx.toNat (bcdDigits (s.reg x))) :=
  s.checkLast_of_le _ h

/-- With the last register's byte above the last address FX55 faults (R157, R57). -/
theorem exec_storeRegs_of_gt (h : 4095 < s.idx.toNat + x.toNat) :
    exec (.storeRegs x) s = .next { s with status := .halted (.addressOutOfRange (s.idx.toNat + x.toNat)) } :=
  s.checkLast_of_gt _ h

/-- With the last register's byte above the last address FX65 faults (R158, R57). -/
theorem exec_loadRegs_of_gt (h : 4095 < s.idx.toNat + x.toNat) :
    exec (.loadRegs x) s = .next { s with status := .halted (.addressOutOfRange (s.idx.toNat + x.toNat)) } :=
  s.checkLast_of_gt _ h

theorem exec_loadRegs_of_le (h : s.idx.toNat + x.toNat ≤ 4095) :
    exec (.loadRegs x) s = .next (s.setRegs 0 (s.readBytes s.idx.toNat (regCount x))) :=
  s.checkLast_of_le _ h

/-! ## Digits -/

/-- A digit's byte holds the digit (R156). -/
theorem toNat_byte_of_lt {n : Nat} (h : n < 256) : (BitVec.ofNat 8 n).toNat = n :=
  Nat.mod_eq_of_lt h

/-- Settles O40, by the range check; the three digits are read back where they are written. -/
theorem bcdStoresThreeDigits : Obligations.BcdStoresThreeDigits := by
  intro x s
  refine ⟨decodeWord_encode (.ldB x), exec_ldB_of_gt, fun hfits => ⟨_, exec_ldB_of_le hfits, ?_⟩⟩
  have hread := s.readByte_writeBytes_inside s.idx.toNat (bcdDigits (s.reg x))
  refine ⟨?_, ?_, ?_, fun a ha => s.readByte_writeBytes_outside _ _ a ?_, State.writeBytes_only_mem ..⟩
  · exact (congrArg BitVec.toNat (hread 0 (by decide : 0 < 3))).trans (toNat_byte_of_lt (by omega))
  · exact (congrArg BitVec.toNat (hread 1 (by decide : 1 < 3))).trans (toNat_byte_of_lt (by omega))
  · exact (congrArg BitVec.toNat (hread 2 (by decide : 2 < 3))).trans (toNat_byte_of_lt (by omega))
  · exact ha.imp_right Nat.succ_le_of_lt

/-! ## Registers to memory and back -/

/-- Settles O41, by the range check; register `r` is byte `r` of what is written. -/
theorem storeCopiesRegistersToMemory : Obligations.StoreCopiesRegistersToMemory := by
  intro x s
  refine ⟨decodeWord_encode (.storeRegs x), exec_storeRegs_of_gt, fun hfits => ⟨_, exec_storeRegs_of_le hfits, fun r hr => ?_,
    fun a ha => s.readByte_writeBytes_outside _ _ a ?_, State.writeBytes_only_mem ..⟩⟩
  · have hlt : r.toNat < (s.regs (regCount x)).length := by rw [State.length_regs]; exact Nat.lt_succ_of_le hr
    rw [s.readByte_writeBytes_inside _ _ _ hlt, State.getElem_regs, BitVec.ofNat_toNat, BitVec.setWidth_eq]
  · rw [State.length_regs, regCount]
    omega

/-- The bytes at `idx` loaded into `x[0..X]`: byte `r` goes to register `r` (R158). -/
theorem State.reg_setRegs_readBytes (s : State) (a : Nat) (x r : Reg) :
    (s.setRegs 0 (s.readBytes a (regCount x))).reg r = if r.toNat ≤ x.toNat then s.readByte (a + r.toNat) else s.reg r := by
  have hx := x.isLt
  rw [State.reg_setRegs _ _ _ _ (by simp only [State.length_readBytes, regCount]; omega), if_pos (Nat.zero_le _), Nat.sub_zero]
  split
  next h =>
    have hlt : r.toNat < (s.readBytes a (regCount x)).length := by rw [State.length_readBytes]; exact Nat.lt_succ_of_le h
    rw [List.getElem?_eq_getElem hlt, State.getElem_readBytes, Option.getD_some]
  next h =>
    rw [List.getElem?_eq_none (by simp only [State.length_readBytes, regCount]; omega), Option.getD_none]

/-- Settles O42, by the range check and the registers the bulk load reaches. -/
theorem loadCopiesMemoryToRegisters : Obligations.LoadCopiesMemoryToRegisters := by
  intro x s
  exact ⟨decodeWord_encode (.loadRegs x), exec_loadRegs_of_gt, fun hfits => ⟨_, exec_loadRegs_of_le hfits,
    s.reg_setRegs_readBytes _ x, State.setRegs_only_x ..⟩⟩

end Sys2Proof.Machine
end

section

/-! Exceptions and the events as a whole (spec/60_exceptions.md R170 to R190): TICK, the step that always goes on, which instruction
faults when, and what a halt or a key-wait holds fast. -/

namespace Sys2Proof.Machine

variable {s t : State} {i : Instr}

/-! ## TICK -/

/-- A count down puts out an edge only from 1 to 0 (R181, R182). -/
theorem soundEdges_countDown (b : Byte) : soundEdges b (countDown b) = if b.toNat = 1 then [.soundOff] else [] := by
  rw [soundEdges_eq, toNat_countDown, if_neg (by omega)]
  exact if_congr (by omega) rfl rfl

/-- Settles O44, by what TICK does in each mode. -/
theorem tickCountsBothTimersDown : Obligations.TickCountsBothTimersDown := by
  refine fun s => ⟨fun hmode => congrArg _ (s.tick_launcher hmode), fun hmode => ?_⟩
  exact ⟨_, congrArg Host.Outcome.next (s.tick_running hmode), toNat_countDown s.dt, toNat_countDown s.st,
    congrArg _ (soundEdges_countDown s.st), rfl⟩

/-- A run of one step more continues from the state the first step answers. -/
theorem run_succ_of_step {M : Host.Core} {s t : M.State} (n : Nat) (h : M.step s = .next t) : M.run (n + 1) s = M.run n t := by
  simp only [Host.Core.run, h]

/-- Settles O45, by induction on the number of TICKs: the first leaves both timers 1 lower and the other TICKs in the list. -/
theorem manyTicksCountDownToZero : Obligations.ManyTicksCountDownToZero := by
  intro n
  induction n with
  | zero =>
    intro s es _ hevents
    have hes : s.events = es := by simpa using hevents
    exact ⟨s, rfl, rfl, rfl, by rw [← hes]⟩
  | succ n ih =>
    intro s es hmode hevents
    have hcons : s.events = .tick :: (List.replicate n .tick ++ es) := by rw [hevents, List.replicate_succ, List.cons_append]
    obtain ⟨-, htick⟩ := tickCountsBothTimersDown { s with events := List.replicate n .tick ++ es }
    obtain ⟨u, hu, hdt, hst, -, hframe⟩ := htick hmode
    have hstep : step s = .next u := (step_of_events_cons hcons).trans hu
    obtain ⟨t, ht, hdt', hst', hframe'⟩ := ih u es (by rw [hframe]; exact hmode) (by rw [hframe])
    refine ⟨t, (run_succ_of_step n hstep).trans ht, ?_, ?_, ?_⟩
    · rw [hdt', hdt, Nat.sub_sub, Nat.add_comm]
    · rw [hst', hst, Nat.sub_sub, Nat.add_comm]
    · rw [hframe', hframe]

/-! ## Every step goes on -/

/-- A fetched word halts or runs, and both go on (R93, R94). -/
theorem runWord_next (w : Word) (s : State) : ∃ t, runWord w s = .next t := by
  cases hw : decodeWord w with
  | ok i => rw [runWord_of_decode hw]; exact exec_next i s
  | error e => exact ⟨_, runWord_of_illegal (by simp [hw])⟩

/-- The end of the program, a fetch fault and the fetched word all go on (R91, R92). -/
theorem stepEngine_next (s : State) : ∃ t, stepEngine s = .next t := by
  by_cases hend : s.progEnd ≤ s.pc.toNat
  · exact ⟨_, stepEngine_of_end hend⟩
  · cases hread : s.memRead2 s.pc.toNat with
    | error hl => exact ⟨_, stepEngine_of_fetch_fault (by omega) hread⟩
    | ok w =>
      have hrun : stepEngine s = runWord w { s with pc := s.pc + 2 } := by rw [stepEngine, if_neg hend, hread]
      rw [hrun]
      exact runWord_next w _

theorem handle_cycle_next (s : State) : ∃ t, handle .cycle s = .next t := by
  by_cases hgate : s.mode = .running ∧ s.status = .executing
  · rw [handle_cycle_of_executing hgate.1 hgate.2]
    exact stepEngine_next s
  · exact ⟨s, handle_cycle_of_gated (not_and_or.1 hgate)⟩

/-- Every event but POWER_ON has a transition in every state (R189; log entry 2). -/
theorem handle_next {e : Event} (h : e ≠ .powerOn) (s : State) : ∃ t, handle e s = .next t := by
  cases e with
  | powerOn => exact absurd rfl h
  | cycle => exact handle_cycle_next s
  | load | resetReq | tick | key => exact ⟨_, rfl⟩

/-- Settles O8, by whether the next event is the one without a transition. -/
theorem everyStepGoesOn : Obligations.EveryStepGoesOn := by
  intro s
  rw [step_eq_handle_nextEvent]
  by_cases hevent : s.nextEvent.1 = .powerOn
  · exact .inr ⟨hevent, by rw [hevent]; rfl⟩
  · exact .inl (handle_next hevent _)

/-! ## Which instruction faults when -/

/-- An instruction takes exactly the fault R171 lists for it and then changes `status` alone (R172), or it completes with the status it
had, FX0A with the wait (R97). -/
def FaultsPrecisely (i : Instr) (s : State) : Prop :=
  (∀ h, faultOf i s = some h → exec i s = .next { s with status := .halted h }) ∧
  (faultOf i s = none → ∃ t, exec i s = .next t ∧
    ((∀ x, i ≠ .ldVxK x) → t.status = s.status) ∧ ∀ x, i = .ldVxK x → t.status = .waitingForKey x)

/-- An instruction that R171 does not list has to complete. -/
theorem faultsPrecisely_of_completes (hwait : ∀ x, i ≠ .ldVxK x) (hlisted : faultOf i s = none) (hexec : exec i s = .next t)
    (hstatus : t.status = s.status) : FaultsPrecisely i s := by
  refine ⟨fun h hsome => ?_, fun _ => ⟨t, hexec, fun _ => hstatus, fun x hx => absurd hx (hwait x)⟩⟩
  rw [hlisted] at hsome
  cases hsome

/-- An instruction that R171 lists with one condition has to fault where it holds and to complete where it does not. -/
theorem faultsPrecisely_of_condition {c : Prop} [Decidable c] {hl : Halt} (hwait : ∀ x, i ≠ .ldVxK x)
    (hlisted : faultOf i s = if c then some hl else none) (hfault : c → exec i s = .next { s with status := .halted hl })
    (hcompletes : ¬c → ∃ t, exec i s = .next t ∧ t.status = s.status) : FaultsPrecisely i s := by
  by_cases hc : c
  · rw [if_pos hc] at hlisted
    refine ⟨fun h hsome => ?_, fun hnone => ?_⟩
    · obtain rfl : hl = h := Option.some.inj (hlisted.symm.trans hsome)
      exact hfault hc
    · rw [hlisted] at hnone
      cases hnone
  · obtain ⟨t, hexec, hstatus⟩ := hcompletes hc
    exact faultsPrecisely_of_completes hwait (hlisted.trans (if_neg hc)) hexec hstatus

/-- Settles O51, by each instruction's own condition, or none. -/
theorem faultsArePreciseAndAsListed : Obligations.FaultsArePreciseAndAsListed := by
  intro i s
  change FaultsPrecisely i s
  cases i with
  | call nnn =>
    exact faultsPrecisely_of_condition nofun rfl (exec_call_of_full · nnn) fun h => ⟨_, exec_call_of_room (by omega) nnn, rfl⟩
  | ret => exact faultsPrecisely_of_condition nofun rfl exec_ret_of_empty fun h => ⟨_, exec_ret_of_pos (by omega), rfl⟩
  | jpV0 => exact faultsPrecisely_of_condition nofun rfl exec_jpV0_of_gt fun h => ⟨_, exec_jpV0_of_le (by omega), rfl⟩
  | drw =>
    exact faultsPrecisely_of_condition nofun rfl (fun ⟨hn, hgt⟩ => exec_drw_of_gt hn hgt) fun h =>
      ⟨_, exec_drw_of_fits (by omega), rfl⟩
  | skp =>
    exact faultsPrecisely_of_condition nofun rfl (State.keyTest_of_gt · true) fun h =>
      ⟨_, State.keyTest_of_lt (by omega) true, rfl⟩
  | sknp =>
    exact faultsPrecisely_of_condition nofun rfl (State.keyTest_of_gt · false) fun h =>
      ⟨_, State.keyTest_of_lt (by omega) false, rfl⟩
  | ldB =>
    exact faultsPrecisely_of_condition nofun rfl exec_ldB_of_gt fun h =>
      ⟨_, exec_ldB_of_le (by omega), State.writeBytes_status ..⟩
  | storeRegs =>
    exact faultsPrecisely_of_condition nofun rfl exec_storeRegs_of_gt fun h =>
      ⟨_, exec_storeRegs_of_le (by omega), State.writeBytes_status ..⟩
  | loadRegs =>
    exact faultsPrecisely_of_condition nofun rfl exec_loadRegs_of_gt fun h =>
      ⟨_, exec_loadRegs_of_le (by omega), State.setRegs_status ..⟩
  | ldVxK x =>
    exact ⟨nofun, fun _ => ⟨_, exec_ldVxK x s, fun hne => absurd rfl (hne x), fun y hy => by cases hy; rfl⟩⟩
  | seImm | sneImm | seReg | sneReg => exact faultsPrecisely_of_completes nofun rfl rfl (State.skipIf_status ..)
  | addReg | subReg | shr | subnReg | shl => exact faultsPrecisely_of_completes nofun rfl rfl (State.setResult_status ..)
  | cls | jp | ldImm | addImm | ldReg | orReg | andReg | xorReg | ldI | rnd | ldVxDt | ldDtVx | ldStVx | addI | ldF =>
    exact faultsPrecisely_of_completes nofun rfl rfl rfl

/-! ## What a halt and a key-wait hold fast -/

/-- While Running and not Executing, an event that neither resets nor resumes changes at most the timers, the latch and the trace
(R173, R188, R190). -/
theorem handle_of_stalled {e : Event} (hmode : s.mode = .running) (hstalled : s.status ≠ .executing) (hreset : e ≠ .resetReq)
    (hresume : (∀ r, s.status ≠ .waitingForKey r) ∨ ∀ k, e ≠ .key k true) (ht : handle e s = .next t) :
    t = { s with dt := t.dt, st := t.st, key := t.key, out := t.out } := by
  cases e with
  | powerOn => cases ht
  | resetReq => exact absurd rfl hreset
  | cycle =>
    rw [handle_cycle_of_gated (.inr hstalled)] at ht
    cases ht
    rfl
  | load image =>
    cases ht
    rw [s.load_running image hmode]
  | tick =>
    cases ht
    rw [s.tick_running hmode]
  | key k p =>
    cases ht
    rcases s.keyEvent_cases k p with hk | hk | ⟨-, j, hk⟩
    · rw [hk]
    · rw [hk]; rfl
    · have hlatch : s.latch j p = s.setKey j p :=
        s.latch_only_key (hresume.imp_right fun hpress => .inl (Bool.eq_false_iff.2 fun hp => hpress k (by rw [hp])))
      rw [hk, hlatch]; rfl

/-- Settles O59: a halt is no key-wait, so no press resumes it. -/
theorem haltedIsFrozenUntilReset : Obligations.HaltedIsFrozenUntilReset := by
  intro e s t h hmode hhalted hreset ht
  have hframe := handle_of_stalled hmode (by simp [hhalted]) hreset (.inl fun r => by simp [hhalted]) ht
  exact ⟨by rw [hframe, hhalted], by rw [hframe, hmode], hframe⟩

/-- Settles O60: the one event besides RESET_REQ that could resume the wait is left out. -/
theorem waitingEndsOnlyByAPressOrReset : Obligations.WaitingEndsOnlyByAPressOrReset := by
  intro e s t r hmode hwaiting ht hreset hpress
  have hframe := handle_of_stalled hmode (by simp [hwaiting]) hreset (.inr hpress) ht
  exact ⟨by rw [hframe, hwaiting], hframe⟩

end Sys2Proof.Machine
end

section

/-! POWER_ON, LOAD and RESET_REQ (spec/70_reset_and_hazards.md R200 to R209): what a cleared run reads as, and what of the memory an
initialising event leaves to read. -/

namespace Sys2Proof.Machine

variable {s t : State}

/-! ## A cleared run -/

theorem State.reg_of_cleared (h : t.x = Vector.replicate 16 0) (r : Reg) : t.reg r = 0 := by
  rw [State.reg, getElem_congr_coll h, Vector.getElem_replicate]

/-- Clearing the sound timer puts out an edge exactly where the tone was on (R182, R204, R208). -/
theorem soundEdges_zero (b : Byte) : soundEdges b 0 = if 0 < b.toNat then [.soundOff] else [] := by
  simp [soundEdges_eq]

/-! ## POWER_ON -/

/-- A memory that lists nothing reads as the font below 0x050 (R200). -/
theorem State.readByte_of_mem_nil (hmem : s.mem = []) {a : Nat} (h : a < fontSize) : s.readByte a = s.cfg.font[a] := by
  simp [State.readByte, State.unwritten, hmem, Memory.listed, h]

/-- Settles O47: the zeros are read off, and the font is what an empty memory reads as. -/
theorem powerOnLeavesTheCoreIdle : Obligations.PowerOnLeavesTheCoreIdle := by
  intro cfg
  exact ⟨rfl, rfl, rfl, State.reg_of_cleared rfl, rfl, rfl, rfl, fun _ h => Vector.getElem_replicate h, rfl, rfl, Screen.get_clear,
    fun k => Vector.getElem_replicate k.isLt, rfl, fun _ h => State.readByte_of_mem_nil rfl h⟩

/-! ## Launcher -/

/-- Settles O46: CYCLE is gated, TICK and KEY look at the mode first. -/
theorem launcherIsIdle : Obligations.LauncherIsIdle := by
  intro s hmode
  have hkey : ∀ k p, s.keyEvent k p = s := fun k p => by simp only [State.keyEvent, hmode]
  exact ⟨handle_cycle_of_gated (.inl (by simp [hmode])), congrArg _ (s.tick_launcher hmode), fun k p => congrArg _ (hkey k p)⟩

/-! ## LOAD -/

/-- Settles O49, by the report of an oversize image. -/
theorem oversizeLoadIsReportedOnly : Obligations.OversizeLoadIsReportedOnly :=
  fun s image hmode hlen => congrArg _ (s.load_oversize image hmode hlen)

/-- A byte of the image reads back where it was laid: the image begins above the font (R204). -/
theorem State.readByte_image {m : Memory} {image : List Byte} (hmem : t.mem = Memory.fontCells m ++ imageCells loadBase image) {a : Nat}
    (h : a < image.length) : t.readByte (loadBase + a) = image[a] := by
  have hfont : ¬loadBase + a < fontSize := by simp only [loadBase, fontSize]; omega
  have hlisted : Memory.listed t.mem (loadBase + a) = some image[a] := by
    rw [hmem, listed_append, listed_fontCells, if_neg hfont, Option.none_or, listed_imageCells, if_pos (Nat.le_add_right _ _),
      Nat.add_sub_cancel_left, List.getElem?_eq_getElem h]
  rw [State.readByte, hlisted, Option.getD_some]

/-- No image reaches down to the font (R204, R206). -/
theorem listed_font_of_load (m : Memory) (image : List Byte) {a : Nat} (h : a < fontSize) :
    Memory.listed (Memory.fontCells m ++ imageCells loadBase image) a = Memory.listed m a := by
  have himage : ¬loadBase ≤ a := by simp only [loadBase, fontSize] at *; omega
  rw [listed_append, listed_fontCells, if_pos h, listed_imageCells, if_neg himage, Option.or_none]

/-- Settles O48: an accepted image is laid out over a cleared run, above the font. -/
theorem loadStartsARun : Obligations.LoadStartsARun := by
  intro s image
  refine ⟨fun hmode => congrArg _ (s.load_running image hmode), fun hmode hlen => ?_⟩
  refine ⟨_, congrArg Host.Outcome.next (s.load_accepted image hmode hlen), rfl, rfl, rfl, State.reg_of_cleared rfl, rfl, rfl, rfl,
    fun _ h => Vector.getElem_replicate h, rfl, rfl, Screen.get_clear, rfl, congrArg _ (soundEdges_zero s.st), ?_, fun a ha => ?_⟩
  · exact fun _ h => State.readByte_image rfl h
  · exact s.readByte_fontCells (listed_font_of_load s.mem image ha) rfl ha

/-! ## RESET_REQ -/

/-- Settles O50, as RESET_REQ leaves a cleared run in Launcher, with the font's cells. -/
theorem resetRequestReturnsToLauncher : Obligations.ResetRequestReturnsToLauncher := by
  refine fun s => ⟨fun hmode => congrArg _ (s.resetRequest_launcher hmode), fun hmode => ?_⟩
  refine ⟨_, congrArg Host.Outcome.next (s.resetRequest_running hmode), rfl, rfl, rfl, State.reg_of_cleared rfl, rfl, rfl, rfl,
    fun _ h => Vector.getElem_replicate h, rfl, rfl, Screen.get_clear, rfl, congrArg _ (soundEdges_zero s.st), fun a ha => ?_⟩
  exact s.readByte_fontCells ((listed_fontCells s.mem a).trans (if_pos ha)) rfl ha

end Sys2Proof.Machine
end
